-- ==== Sys2Proof/Word.lean ====
section
/-! DEFINITION. The word types of minimal_cpu_core: an 8-bit register value (R20) and a 24-bit instruction word (R60). -/

namespace Sys2Proof

/-- A register value, an immediate, an operand value, an instruction index: unsigned, 0 to 255 (R8, R20). -/
abbrev Byte := BitVec 8

/-- One instruction word (R60). -/
abbrev InstrWord := BitVec 24

end Sys2Proof
end

