-- ==== Sys2Proof/Config.lean ====
section
/-! DEFINITION. The parameters the spec fixes for this hardware (R5). The arguments of R5 (PEND, IMEM, HAS_CGT_CLT)
are fields of State, see log entry 1. The spec leaves no value free, so there is no opaque constant here. -/

namespace Sys2Proof.Config

/-- `REGSIZE` (R5): the width that governs the clamping of `add` and `sub`. -/
def regSize : Nat := 256

/-- `NREG` (R5, R20): how many registers there are. -/
def numRegs : Nat := 6

/-- The largest `PEND` (R5, R23): `pc` must be able to hold the halting value. -/
def maxProgram : Nat := 255

/-- The default of the synthesis option `HAS_CGT_CLT` (R5, R133). -/
def hasCgtCltDefault : Bool := true

/-- Words the 8-bit instruction address can name (R41). -/
def imemWords : Nat := 256

/-- What a byte of instruction memory that no load has written reads as.
DESIGN CHOICE (unsafe, log entry 5): the host loads every word below `PEND` before Reset (R185). -/
def unloadedByte : Byte := 0

end Sys2Proof.Config
end

