-- ==== Sys2Proof/Syntax.lean ====
section
/-! DEFINITION. The nine instructions of the opcode map (R63) with the operand fields of format F24 (R61). -/

namespace Sys2Proof

/-- The field `N` (R61, R64): how many operand tokens the instruction carries, saturated at 3. -/
abbrev TokenCount := BitVec 2

/-- An operand: a mode bit and an 8-bit field (R61, R65, R66). -/
inductive Operand where
  /-- Mode 0: the field is a register number. All 8 bits count; 6 to 255 name no register (R65). -/
  | reg (num : Byte)
  /-- Mode 1: the field is the unsigned value itself (R66). -/
  | imm (val : Byte)
  deriving DecidableEq, Repr

/-- The nine instructions, one constructor for each row of the opcode table. Each carries `N`, operand A and operand B:
every field of the word but `OP`, whether the instruction uses it or not (R63, R69). -/
inductive Instr where
  /-- `mov dst,value`: A is the destination, B the value (R110). -/
  | mov (n : TokenCount) (a b : Operand)
  /-- `add src,dst`: A is the source, B the destination (R120). -/
  | add (n : TokenCount) (a b : Operand)
  /-- `sub src,dst`: A is the amount subtracted, B the destination (R121). -/
  | sub (n : TokenCount) (a b : Operand)
  /-- `cmp a,b` (R130). -/
  | cmp (n : TokenCount) (a b : Operand)
  /-- `cgt a,b`, implemented when `HAS_CGT_CLT` (R131). -/
  | cgt (n : TokenCount) (a b : Operand)
  /-- `clt a,b`, implemented when `HAS_CGT_CLT` (R132). -/
  | clt (n : TokenCount) (a b : Operand)
  /-- `jmp target`: A is the target, B is not used (R140). -/
  | jmp (n : TokenCount) (a b : Operand)
  /-- `jnz target`: A is the target, B is not used (R141). -/
  | jnz (n : TokenCount) (a b : Operand)
  /-- `jze target`: A is the target, B is not used (R142). -/
  | jze (n : TokenCount) (a b : Operand)
  deriving DecidableEq, Repr

end Sys2Proof
end

