-- ==== Sys2Proof/WellFormed.lean ====
section
/-! DEFINITION. The canonical instructions: those a well-formed assembly line stands for (R70, R62). The types already
bound every field, so EVERY `Instr` has a word and every word of a known opcode decodes to one; `Instr.wf` is the
stricter notion of R70. Nothing in Decode or Machine depends on it: an instruction that is not canonical runs too, as
the rules say it does. -/

namespace Sys2Proof

/-- An operand that can be read: an immediate, or one of the six registers (R65). -/
def Operand.readable : Operand → Bool
  | .imm _ => true
  | .reg f => f.toNat < Config.numRegs

/-- An operand that can be written: one of the six registers, never an immediate (R65, R67). -/
def Operand.writable : Operand → Bool
  | .imm _ => false
  | .reg f => f.toNat < Config.numRegs

/-- What the assembler writes for an operand it has no token for (R78). -/
def Operand.blank : Operand := .reg 0

/-- The canonical form of a two-operand instruction without a destination (R62, R70). -/
def wfCompare (n : TokenCount) (a b : Operand) : Bool :=
  n == 2 && a.readable && b.readable

/-- The canonical form of a jump: one token, operand B blank (R70). -/
def wfJump (n : TokenCount) (a b : Operand) : Bool :=
  n == 1 && a.readable && b == Operand.blank

/-- The canonical instructions of R70. -/
def Instr.wf : Instr → Bool
  | .mov n a b => n == 2 && a.writable && b.readable
  | .add n a b => n == 2 && a.readable && b.writable
  | .sub n a b => n == 2 && a.readable && b.writable
  | .cmp n a b => wfCompare n a b
  | .cgt n a b => wfCompare n a b
  | .clt n a b => wfCompare n a b
  | .jmp n a b => wfJump n a b
  | .jnz n a b => wfJump n a b
  | .jze n a b => wfJump n a b

end Sys2Proof
end

