-- ==== Sys2Proof/Decode.lean ====
section
/-! DEFINITION. `instruction_decoder`: the fields of format F24 (R61), the opcode map (R63), the decoder, the encoder, and
the byte serialisation of a word for interchange (R44). -/

namespace Sys2Proof

/-- `OP`, bits 23 to 20 (R61). -/
def opField (w : InstrWord) : BitVec 4 := w.extractLsb' 20 4

/-- `N`, bits 19 and 18 (R61). -/
def nField (w : InstrWord) : TokenCount := w.extractLsb' 18 2

/-- `MA`, bit 17: the mode of operand A (R61). -/
def maField (w : InstrWord) : BitVec 1 := w.extractLsb' 17 1

/-- `MB`, bit 16: the mode of operand B (R61). -/
def mbField (w : InstrWord) : BitVec 1 := w.extractLsb' 16 1

/-- `A`, bits 15 to 8 (R61). -/
def aField (w : InstrWord) : Byte := w.extractLsb' 8 8

/-- `B`, bits 7 to 0 (R61). -/
def bField (w : InstrWord) : Byte := w.extractLsb' 0 8

/-- An operand from its mode bit and its field: mode 0 is a register, mode 1 an immediate (R61). -/
def operandOf (m : BitVec 1) (f : Byte) : Operand :=
  if m = 0 then .reg f else .imm f

/-- Operand A of a word. -/
def operandA (w : InstrWord) : Operand := operandOf (maField w) (aField w)

/-- Operand B of a word. -/
def operandB (w : InstrWord) : Operand := operandOf (mbField w) (bField w)

/-- Why a word is no instruction of the opcode map (R68). -/
inductive Reject where
  /-- `N = 0` on a reserved opcode: MissingOperand comes before the opcode lookup (R68 verdict 1, R92). -/
  | missingOperand
  /-- `OP` is 0 or 10 to 15 and `N` is not 0: UnknownOpcode (R68 verdict 2). -/
  | reservedOpcode (op : BitVec 4)
  deriving DecidableEq, Repr

/-- The decoder, total on all 2^24 words. Only `OP` selects the instruction (R63). A word of one of the nine opcodes with
`N = 0` is that instruction without operand text, and its meaning raises MissingOperand first (DESIGN CHOICE, log
entry 7); `cgt` and `clt` decode whatever `HAS_CGT_CLT` is, and their meaning raises UnknownOpcode when it is false
(DESIGN CHOICE, log entry 8). The faults and their order are those of R68. -/
def decode (w : InstrWord) : Except Reject Instr :=
  let n := nField w
  let a := operandA w
  let b := operandB w
  match (opField w).toNat with
  | 1 => .ok (.mov n a b)
  | 2 => .ok (.add n a b)
  | 3 => .ok (.sub n a b)
  | 4 => .ok (.cmp n a b)
  | 5 => .ok (.cgt n a b)
  | 6 => .ok (.clt n a b)
  | 7 => .ok (.jmp n a b)
  | 8 => .ok (.jnz n a b)
  | 9 => .ok (.jze n a b)
  | _ => .error (if n = 0 then .missingOperand else .reservedOpcode (opField w))

/-- The mode bit of an operand (R61). -/
def Operand.mode : Operand → BitVec 1
  | .reg _ => 0
  | .imm _ => 1

/-- The 8-bit field of an operand (R61). -/
def Operand.field : Operand → Byte
  | .reg f => f
  | .imm f => f

/-- The mode bit and the field together, as `FINFO` reports an offending operand (R94, R95, R150). -/
def Operand.token (o : Operand) : BitVec 9 := o.mode ++ o.field

/-- The opcode number (R63). -/
def Instr.opcode : Instr → BitVec 4
  | .mov _ _ _ => 0x1
  | .add _ _ _ => 0x2
  | .sub _ _ _ => 0x3
  | .cmp _ _ _ => 0x4
  | .cgt _ _ _ => 0x5
  | .clt _ _ _ => 0x6
  | .jmp _ _ _ => 0x7
  | .jnz _ _ _ => 0x8
  | .jze _ _ _ => 0x9

/-- The field `N` of an instruction. -/
def Instr.count : Instr → TokenCount
  | .mov n _ _ | .add n _ _ | .sub n _ _ | .cmp n _ _ | .cgt n _ _ | .clt n _ _ | .jmp n _ _ | .jnz n _ _ | .jze n _ _ => n

/-- Operand A of an instruction. -/
def Instr.opA : Instr → Operand
  | .mov _ a _ | .add _ a _ | .sub _ a _ | .cmp _ a _ | .cgt _ a _ | .clt _ a _ | .jmp _ a _ | .jnz _ a _ | .jze _ a _ => a

/-- Operand B of an instruction. -/
def Instr.opB : Instr → Operand
  | .mov _ _ b | .add _ _ b | .sub _ _ b | .cmp _ _ b | .cgt _ _ b | .clt _ _ b | .jmp _ _ b | .jnz _ _ b | .jze _ _ b => b

/-- The least `N` an instruction accepts, which is also the `N` of its canonical words (R62, R70). -/
def Instr.minTokens : Instr → TokenCount
  | .mov _ _ _ | .add _ _ _ | .sub _ _ _ | .cmp _ _ _ | .cgt _ _ _ | .clt _ _ _ => 2
  | .jmp _ _ _ | .jnz _ _ _ | .jze _ _ _ => 1

/-- The word with given fields, `OP` in the most significant bits (R61). -/
def packWord (op : BitVec 4) (n : TokenCount) (a b : Operand) : InstrWord :=
  op ++ n ++ a.mode ++ b.mode ++ a.field ++ b.field

/-- The encoder (R61, R63). -/
def encode (i : Instr) : InstrWord := packWord i.opcode i.count i.opA i.opB

/-- Three bytes as one word, the most significant first (R44, interchange only). -/
def wordOfBytes (hi mid lo : Byte) : InstrWord := hi ++ mid ++ lo

/-- A word as three bytes, the most significant first (R44, interchange only). -/
def bytesOfWord (w : InstrWord) : List Byte :=
  [w.extractLsb' 16 8, w.extractLsb' 8 8, w.extractLsb' 0 8]

/-- Why a byte stream gives no instruction. -/
inductive StreamReject where
  /-- Fewer than the three bytes of a word are left (R44, R60). -/
  | truncated
  /-- The word is there and is no instruction of the opcode map. -/
  | word (r : Reject)
  deriving DecidableEq, Repr

/-- The decoder on a byte stream in the serialisation of R44: one instruction and the rest of the stream. -/
def decodeBytes : List Byte → Except StreamReject (Instr × List Byte)
  | hi :: mid :: lo :: rest =>
    match decode (wordOfBytes hi mid lo) with
    | .ok i => .ok (i, rest)
    | .error r => .error (.word r)
  | _ => .error .truncated

/-- The word whose low `nbits` bits are those of `w`, every bit above them 0. -/
def tableWord (nbits w : Nat) : InstrWord := BitVec.ofNat 24 (w % 2 ^ nbits)

/-- The instruction the decoder reads from a word numbered as the opcode table numbers it (bit 0 the least significant
bit of the one 24-bit word); none where it refuses. -/
def decodeTableWord (nbits w : Nat) : Option Instr :=
  match decode (tableWord nbits w) with
  | .ok i => some i
  | .error _ => none

end Sys2Proof
end

