-- ==== Sys2Proof/Machine/State.lean ====
section
/-! DEFINITION. The state of minimal_cpu_core (R20, R28, R32), the inputs it steps under (R31, log entry 1), the reasons a
step can stop, the fault causes, and the state after Reset. -/

namespace Sys2Proof.Machine

/-- The six registers of `register_file_6x8bit` (R20). -/
inductive Reg where
  | r0 | r1 | s | ovfl | udfl | pc
  deriving DecidableEq, Repr

/-- Instruction memory (R41) as (address, byte) cells: the word at index `i` is the bytes at `3*i`, `3*i+1`, `3*i+2`, the
most significant first (the serialisation of R44; DESIGN CHOICE, log entry 4). No instruction sees a byte address. -/
abbrev Memory := List Host.Cell

/-- The cells lie at strictly rising addresses, from `lo` on and inside the address space, and none holds what an unlisted
address reads as. -/
def Memory.wfFrom (lo : Nat) : Memory → Bool
  | [] => true
  | (k, v) :: m => lo ≤ k && k < 3 * Config.imemWords && v != Config.unloadedByte && Memory.wfFrom (k + 1) m

/-- The canonical form of memory. -/
def Memory.wf (m : Memory) : Bool := m.wfFrom 0

/-- The whole state. `r0` to `finfo` are the architectural state of R32; `pend`, `imem` and `hasCgtClt` are the inputs of
R31, constant for a run, which no step writes (log entry 1). -/
structure State where
  /-- Register 0, general purpose (R20, R21). -/
  r0 : Byte
  /-- Register 1, general purpose (R20, R21). -/
  r1 : Byte
  /-- Register 2, the result of the latest comparison (R26). -/
  s : Byte
  /-- Register 3, the sticky overflow flag (R26). -/
  ovfl : Byte
  /-- Register 4, the sticky underflow flag (R26). -/
  udfl : Byte
  /-- Register 5, the index of the instruction (R23, R24). -/
  pc : Byte
  /-- `FCODE`: 0 for no fault, else the code of R150 (R28). -/
  fcode : BitVec 3
  /-- `FLINE`: the value of `pc` when the fault was raised (R28). -/
  fline : Byte
  /-- `FINFO`: the offending token, per cause (R28, R150). -/
  finfo : BitVec 9
  /-- Input `PEND`: the instruction count (R5, R31, R35). -/
  pend : Byte
  /-- Input `IMEM`: the program (R5, R31, R41). -/
  imem : Memory
  /-- Input `HAS_CGT_CLT`: whether `cgt` and `clt` are in the dispatch table (R5, R31, R133). -/
  hasCgtClt : Bool
  deriving DecidableEq, Repr

/-- The three conditions of a state (R7). -/
inductive Condition where
  | running | halted | faulted
  deriving DecidableEq, Repr

/-- The six fault causes (R150). They are transitions of the machine, not stops of the model: raising one is a next state. -/
inductive FaultCause where
  /-- "no instructions after loading", raised by Reset (R151). -/
  | emptyProgram
  /-- The opcode is not in the dispatch table (R152). -/
  | unknownOpcode
  /-- No operand text, `N = 0` (R153). -/
  | missingOperand
  /-- Fewer operand tokens than required (R154). -/
  | arity
  /-- A token that names no register, or an immediate as destination (R156). -/
  | unknownRegister
  /-- A jump target above `PEND` (R157). -/
  | outOfBoundsJump
  deriving DecidableEq, Repr

/-- A `raise <Fault>(info)` of the pseudocode (R9). -/
structure Raise where
  cause : FaultCause
  info : BitVec 9
  deriving DecidableEq, Repr

/-- What an instruction's pseudocode produces when it does not raise: register writes in the order listed, and at most one
taken-jump target (R90 phase 4, R99, R100). -/
structure Effect where
  writes : List (Reg × Byte)
  target : Option Byte
  deriving DecidableEq, Repr

/-- The output signals of the block (R35). -/
structure Ports where
  /-- `imem_addr`: the index being fetched; meaningful only while running (R35; log entry 16). -/
  imemAddr : Byte
  halted : Bool
  faulted : Bool
  fcode : BitVec 3
  fline : Byte
  finfo : BitVec 9
  r0 : Byte
  r1 : Byte
  s : Byte
  ovfl : Byte
  udfl : Byte
  pc : Byte
  deriving DecidableEq, Repr

/-- Why a step has no next state. Raised by `step` alone, in the two conditions in which the spec gives the core no step
(R7, R90; log entry 6). Both are safe: the hardware does nothing there either. -/
inductive Fault where
  /-- The state is halted: the good end of a run (R7, R187). Raised by `step`. Safe. -/
  | halted
  /-- The fault latch holds a code: the run has ended in that fault (R7, R162). Raised by `step`. Safe. -/
  | faulted
  deriving DecidableEq, Repr

/-- Why the model has no meaning for an instruction. Raised by nothing: every instruction has its meaning. -/
inductive Refusal where
  /-- An instruction not modelled yet, by the name of its mnemonic. Raised by an arm of `exec` only, and no arm raises it
  now. Safe. -/
  | notModelled (mnemonic : String)
  deriving DecidableEq, Repr

/-- The state right after Reset with nothing loaded, `Reset(0)`: every register 0, and, because `PEND` is 0, the latch
holds EmptyProgram (code 1) (R33, R180, R181). That no program is loaded is log entry 2; the option is at the spec's
default (R5). -/
def State.reset : State where
  r0 := 0
  r1 := 0
  s := 0
  ovfl := 0
  udfl := 0
  pc := 0
  fcode := 1
  fline := 0
  finfo := 0
  pend := 0
  imem := []
  hasCgtClt := Config.hasCgtCltDefault

end Sys2Proof.Machine
end

