-- ==== Sys2Proof/Machine/Ops.lean ====
section
/-! DEFINITION. The named operations of the machine: registers, instruction memory, the fault latch (raising a fault, and
Reset, the only return from one), the commit of an instruction's effect and the update of `pc`, the host's load. -/

namespace Sys2Proof.Machine

/-! ## The register file (R20, R22) -/

/-- The number of a register (R20). -/
def Reg.number : Reg → Byte
  | .r0 => 0
  | .r1 => 1
  | .s => 2
  | .ovfl => 3
  | .udfl => 4
  | .pc => 5

/-- The register a number names; 6 to 255 name none (R20, R65). -/
def regOfNumber (f : Byte) : Option Reg :=
  match f.toNat with
  | 0 => some .r0
  | 1 => some .r1
  | 2 => some .s
  | 3 => some .ovfl
  | 4 => some .udfl
  | 5 => some .pc
  | _ => none

/-- `x[i]`: the value of a register (R9). -/
def State.getReg (t : State) : Reg → Byte
  | .r0 => t.r0
  | .r1 => t.r1
  | .s => t.s
  | .ovfl => t.ovfl
  | .udfl => t.udfl
  | .pc => t.pc

/-- `x[i] <- v`: the write of one register; the value is stored as it is (R9, R22). -/
def State.setReg (t : State) (r : Reg) (v : Byte) : State :=
  match r with
  | .r0 => { t with r0 := v }
  | .r1 => { t with r1 := v }
  | .s => { t with s := v }
  | .ovfl => { t with ovfl := v }
  | .udfl => { t with udfl := v }
  | .pc => { t with pc := v }

/-! ## Instruction memory (R41) -/

/-- The byte at a cell address. -/
def Memory.readByte : Memory → Nat → Byte
  | [], _ => Config.unloadedByte
  | (k, v) :: m, a => if k = a then v else Memory.readByte m a

/-- Store a byte, keeping the canonical form. -/
def Memory.writeByte : Memory → Nat → Byte → Memory
  | [], a, v => if v = Config.unloadedByte then [] else [(a, v)]
  | (k, u) :: m, a, v =>
    if a < k then
      if v = Config.unloadedByte then (k, u) :: m else (a, v) :: (k, u) :: m
    else if a = k then
      if v = Config.unloadedByte then m else (a, v) :: m
    else (k, u) :: Memory.writeByte m a v

/-- `IFetch(i)`: the word at an instruction index (R9, R41). -/
def Memory.readWord (m : Memory) (i : Nat) : InstrWord :=
  wordOfBytes (m.readByte (3 * i)) (m.readByte (3 * i + 1)) (m.readByte (3 * i + 2))

/-- The host's store of one word (R185 step 2). No instruction does this (R52). -/
def Memory.writeWord (m : Memory) (i : Nat) (w : InstrWord) : Memory :=
  ((m.writeByte (3 * i) (w.extractLsb' 16 8)).writeByte (3 * i + 1) (w.extractLsb' 8 8)).writeByte (3 * i + 2)
    (w.extractLsb' 0 8)

/-- Phase 1 of the step: the word at `pc` (R90, R46). -/
def State.fetch (t : State) : InstrWord := t.imem.readWord t.pc.toNat

/-! ## Conditions and ports -/

/-- Which of the three conditions a state is in (R7). -/
def State.condition (t : State) : Condition :=
  if t.fcode ≠ 0 then .faulted
  else if t.pend ≤ t.pc then .halted
  else .running

/-- The output signals of a state (R35). That `imemAddr` is `pc` in a halted or faulted state too is DESIGN CHOICE, unsafe (log
entry 16): R35 says the signal is driven meaningfully only while running. -/
def State.ports (t : State) : Ports where
  imemAddr := t.pc
  halted := t.condition = .halted
  faulted := t.fcode ≠ 0
  fcode := t.fcode
  fline := t.fline
  finfo := t.finfo
  r0 := t.r0
  r1 := t.r1
  s := t.s
  ovfl := t.ovfl
  udfl := t.udfl
  pc := t.pc

/-! ## The fault latch: raising a fault, and Reset -/

/-- The value of `FCODE` for a cause (R150). -/
def FaultCause.code : FaultCause → BitVec 3
  | .emptyProgram => 1
  | .unknownOpcode => 2
  | .missingOperand => 3
  | .arity => 4
  | .unknownRegister => 5
  | .outOfBoundsJump => 6

/-- Taking a fault, in full (R160, R101): no register changes, `pc` keeps the index of the instruction, the latch takes the
code, `pc` and the info. -/
def State.raise (t : State) (r : Raise) : State :=
  { t with fcode := r.cause.code, fline := t.pc, finfo := r.info }

/-- The Reset event in any state, under the inputs as they stand (R180, R181): the only way out of a fault (R162). -/
def State.applyReset (t : State) : State :=
  { t with
    r0 := 0, r1 := 0, s := 0, ovfl := 0, udfl := 0, pc := 0
    fcode := if t.pend = 0 then FaultCause.emptyProgram.code else 0
    fline := 0, finfo := 0 }

/-- The fault a word outside the opcode map raises (R68, R92, R93, R150). -/
def rejectRaise : Reject → Raise
  | .missingOperand => ⟨.missingOperand, 0⟩
  | .reservedOpcode op => ⟨.unknownOpcode, op.setWidth 9⟩

/-! ## Commit and program counter control (R99, R100) -/

/-- The saturating incrementer of `pc` (R25, R100). -/
def incPc (v : Byte) : Byte := BitVec.ofNat 8 (min (v.toNat + 1) 255)

/-- Commit register writes in the order listed: a later write of the same register wins (R99). -/
def State.commit (t : State) : List (Reg × Byte) → State
  | [] => t
  | (r, v) :: ws => (t.setReg r v).commit ws

/-- The update of `pc`: a taken jump stores its target (case a), every other instruction increments what the commit left
in `pc` (case b) (R100). -/
def State.updatePc (t : State) : Option Byte → State
  | some target => t.setReg .pc target
  | none => t.setReg .pc (incPc t.pc)

/-- The end of an instruction: the fault it raised, or the commit and the update of `pc` (R99, R100, R101). -/
def complete (t : State) : Except Raise Effect → Host.Outcome State Fault Refusal
  | .error r => .next (t.raise r)
  | .ok e => .next ((t.commit e.writes).updatePc e.target)

/-! ## The host's load (R185) -/

/-- Store words at consecutive indices. -/
def Memory.loadFrom (m : Memory) (i : Nat) : List InstrWord → Memory
  | [] => m
  | w :: ws => (m.writeWord i w).loadFrom (i + 1) ws

/-- Steps 2 and 3 of the host protocol: load the words, drive `pend`, apply Reset. None for a program of more than 255
words, which the host refuses (R5, R81, R185). -/
def loadProgram (words : List InstrWord) (hasCgtClt : Bool) : Option State :=
  if words.length ≤ Config.maxProgram then
    some { State.reset with
      pend := BitVec.ofNat 8 words.length
      imem := Memory.loadFrom [] 0 words
      hasCgtClt := hasCgtClt }.applyReset
  else none

/-- Place one word where the next step fetches, in a state that then runs it: the word at `pc`, `PEND` above `pc`, and no
latched fault. A `pc` of 255 can never run, whatever `PEND` is, and is moved to 0 (DESIGN CHOICE, log entry 3). -/
def State.placeWord (t : State) (w : InstrWord) : State :=
  let i : Byte := if t.pc = 255 then 0 else t.pc
  { t with
    pc := i
    fcode := 0, fline := 0, finfo := 0
    pend := if i < t.pend then t.pend else i + 1
    imem := t.imem.writeWord i.toNat w }

end Sys2Proof.Machine
end

