-- ==== Sys2Proof/Machine/Operands.lean ====
section
/-! DEFINITION. The Argument Resolver and the checks of the step's phases 2 to 4: `NeedOps`, `Resolve`, `DstReg`, `Jump`
(R92 to R97). Each answers a value or the fault it raises. -/

namespace Sys2Proof.Machine

/-- Phase 2 (R92): an instruction without operand text raises MissingOperand. -/
def needText (n : TokenCount) : Except Raise Unit :=
  if n = 0 then .error ⟨.missingOperand, 0⟩ else .ok ()

/-- Phase 3 for the two optional opcodes (R90, R93, R133): UnknownOpcode when they are absent. -/
def needOption (t : State) (op : BitVec 4) : Except Raise Unit :=
  if t.hasCgtClt then .ok () else .error ⟨.unknownOpcode, op.setWidth 9⟩

/-- `NeedOps(k)` (R96): Arity when the instruction carries fewer than `k` tokens. -/
def needOps (k : Nat) (n : TokenCount) : Except Raise Unit :=
  if n.toNat < k then .error ⟨.arity, n.setWidth 9⟩ else .ok ()

/-- `Resolve(m, f)` (R94): the value of an operand, register reads at the start of the step (R91). -/
def resolve (t : State) : Operand → Except Raise Byte
  | .imm f => .ok f
  | .reg f =>
    match regOfNumber f with
    | some r => .ok (t.getReg r)
    | none => .error ⟨.unknownRegister, (Operand.reg f).token⟩

/-- `DstReg(m, f)` (R95): the register a destination operand names. An immediate names none. -/
def dstReg : Operand → Except Raise Reg
  | .imm f => .error ⟨.unknownRegister, (Operand.imm f).token⟩
  | .reg f =>
    match regOfNumber f with
    | some r => .ok r
    | none => .error ⟨.unknownRegister, (Operand.reg f).token⟩

/-- `Jump(T)` (R97): OutOfBoundsJump when `T > PEND`, else the taken-jump target. -/
def jump (t : State) (target : Byte) : Except Raise Effect :=
  if t.pend < target then .error ⟨.outOfBoundsJump, target.setWidth 9⟩
  else .ok { writes := [], target := some target }

end Sys2Proof.Machine
end

