-- ==== Sys2Proof/Machine/Flags.lean ====
section
/-! DEFINITION. `alu_add_sub_clamp` and the flags (R26, R122): the clamped results, the sticky flag writes, the value a
comparison writes. Exact integers, narrowed where the rules store them (R8). -/

namespace Sys2Proof.Machine

/-- The result of `add` for source `a` and destination value `b` (R120, R122). -/
def addClamp (a b : Byte) : Byte :=
  let sum := a.toNat + b.toNat
  if sum ≥ Config.regSize then BitVec.ofNat 8 (Config.regSize - 1) else BitVec.ofNat 8 sum

/-- The flag write of `add`: `ovfl <- 1` on overflow, none otherwise (R120). -/
def addFlagWrites (a b : Byte) : List (Reg × Byte) :=
  if a.toNat + b.toNat ≥ Config.regSize then [(.ovfl, 1)] else []

/-- The result of `sub` for source `a` and destination value `b`: destination minus source (R121, R122). -/
def subClamp (a b : Byte) : Byte :=
  let diff : Int := (b.toNat : Int) - (a.toNat : Int)
  if diff < 0 then 0 else BitVec.ofNat 8 diff.toNat

/-- The flag write of `sub`: `udfl <- 1` on underflow, none otherwise (R121). -/
def subFlagWrites (a b : Byte) : List (Reg × Byte) :=
  if (b.toNat : Int) - (a.toNat : Int) < 0 then [(.udfl, 1)] else []

/-- What a comparison writes to `s`: 1 when the relation holds, else 0 (R26). -/
def truthValue (holds : Bool) : Byte := if holds then 1 else 0

end Sys2Proof.Machine
end

