-- ==== Sys2Proof/Machine/Arithmetic.lean ====
section
/-! DEFINITION. Arithmetic with clamp: `add`, `sub` (42_arithmetic). -/

namespace Sys2Proof.Machine

/-- `add src,dst` (R120): the flag write comes before the destination write (R99). -/
def execAdd (n : TokenCount) (a b : Operand) (t : State) : Host.Outcome State Fault Refusal :=
  complete t do
    needText n
    needOps 2 n
    let x ← resolve t a
    let y ← resolve t b
    let d ← dstReg b
    return { writes := addFlagWrites x y ++ [(d, addClamp x y)], target := none }

/-- `sub src,dst` (R121): the flag write comes before the destination write (R99). -/
def execSub (n : TokenCount) (a b : Operand) (t : State) : Host.Outcome State Fault Refusal :=
  complete t do
    needText n
    needOps 2 n
    let x ← resolve t a
    let y ← resolve t b
    let d ← dstReg b
    return { writes := subFlagWrites x y ++ [(d, subClamp x y)], target := none }

end Sys2Proof.Machine
end

