-- ==== Sys2Proof/Machine/Branch.lean ====
section
/-! DEFINITION. Control transfer: `jmp`, `jnz`, `jze` (44_branch). Operand B is not used (R69). -/

namespace Sys2Proof.Machine

/-- A jump that is taken: the target is resolved, then checked against `PEND` (R98, R140). -/
def takeJump (n : TokenCount) (a : Operand) (t : State) : Except Raise Effect := do
  needOps 1 n
  let target ← resolve t a
  jump t target

/-- A conditional jump: taken, or nothing is evaluated (R141 to R143). -/
def jumpIf (taken : Bool) (n : TokenCount) (a : Operand) (t : State) : Except Raise Effect :=
  if taken then takeJump n a t else .ok { writes := [], target := none }

/-- `jmp target` (R140). -/
def execJmp (n : TokenCount) (a : Operand) (t : State) : Host.Outcome State Fault Refusal :=
  complete t do
    needText n
    takeJump n a t

/-- `jnz target` (R141): taken iff `s` is not zero. -/
def execJnz (n : TokenCount) (a : Operand) (t : State) : Host.Outcome State Fault Refusal :=
  complete t do
    needText n
    jumpIf (decide (t.s ≠ 0)) n a t

/-- `jze target` (R142): taken iff `s` is zero. -/
def execJze (n : TokenCount) (a : Operand) (t : State) : Host.Outcome State Fault Refusal :=
  complete t do
    needText n
    jumpIf (decide (t.s = 0)) n a t

end Sys2Proof.Machine
end

