-- ==== Sys2Proof/Machine/Comparison.lean ====
section
/-! DEFINITION. Comparison: `cmp`, `cgt`, `clt` (43_comparison). -/

namespace Sys2Proof.Machine

/-- What the three comparisons share: two operands, A first, and the write of `s` (R98, R130 to R132). -/
def compareOperands (n : TokenCount) (a b : Operand) (t : State) (rel : Byte → Byte → Bool) : Except Raise Effect := do
  needOps 2 n
  let x ← resolve t a
  let y ← resolve t b
  return { writes := [(.s, truthValue (rel x y))], target := none }

/-- `cmp a,b` (R130): equality. -/
def execCmp (n : TokenCount) (a b : Operand) (t : State) : Host.Outcome State Fault Refusal :=
  complete t do
    needText n
    compareOperands n a b t fun x y => decide (x = y)

/-- `cgt a,b` (R131, R133): unsigned greater-than, when the option is there. -/
def execCgt (n : TokenCount) (a b : Operand) (t : State) : Host.Outcome State Fault Refusal :=
  complete t do
    needText n
    needOption t 0x5
    compareOperands n a b t fun x y => decide (x.toNat > y.toNat)

/-- `clt a,b` (R132, R133): unsigned less-than, when the option is there. -/
def execClt (n : TokenCount) (a b : Operand) (t : State) : Host.Outcome State Fault Refusal :=
  complete t do
    needText n
    needOption t 0x6
    compareOperands n a b t fun x y => decide (x.toNat < y.toNat)

end Sys2Proof.Machine
end

