-- ==== Sys2Proof/Machine/DataMovement.lean ====
section
/-! DEFINITION. Data movement: `mov` (41_data_movement). -/

namespace Sys2Proof.Machine

/-- `mov dst,value` (R110): the value is resolved before the destination is looked up (R98). -/
def execMov (n : TokenCount) (a b : Operand) (t : State) : Host.Outcome State Fault Refusal :=
  complete t do
    needText n
    needOps 2 n
    let v ← resolve t b
    let d ← dstReg a
    return { writes := [(d, v)], target := none }

end Sys2Proof.Machine
end

