-- ==== Sys2Proof/Machine/Dispatch.lean ====
section
/-! DEFINITION. The dispatch table (R63): one arm for each instruction. -/

namespace Sys2Proof.Machine

/-- The meaning of an instruction, phases 2 to 5 of the step (R90). -/
def exec (i : Instr) (s : State) : Host.Outcome State Fault Refusal :=
  match i with
  | .mov n a b => Sys2Proof.Machine.execMov n a b s
  | .add n a b => Sys2Proof.Machine.execAdd n a b s
  | .sub n a b => Sys2Proof.Machine.execSub n a b s
  | .cmp n a b => Sys2Proof.Machine.execCmp n a b s
  | .cgt n a b => Sys2Proof.Machine.execCgt n a b s
  | .clt n a b => Sys2Proof.Machine.execClt n a b s
  | .jmp n a _ => Sys2Proof.Machine.execJmp n a s
  | .jnz n a _ => Sys2Proof.Machine.execJnz n a s
  | .jze n a _ => Sys2Proof.Machine.execJze n a s

end Sys2Proof.Machine
end

