-- ==== Sys2Proof/Machine/Step.lean ====
section
/-! DEFINITION. The step (R90) and the placing of one instruction where it fetches. -/

namespace Sys2Proof.Machine

/-- One step (R90): it exists exactly in a running state (R7); it fetches the word at `pc`, decodes it and runs it, or
raises the fault of a word outside the opcode map. -/
def step (s : State) : Host.Outcome State Fault Refusal :=
  match s.condition with
  | .faulted => .fault .faulted
  | .halted => .fault .halted
  | .running =>
    match decode s.fetch with
    | .ok i => exec i s
    | .error r => .next (s.raise (rejectRaise r))

/-- `s` with the instruction of bits `w` where the next step fetches it (log entries 2 and 3). -/
def State.withFetchWord (s : State) (nbits w : Nat) : State := s.placeWord (tableWord nbits w)

end Sys2Proof.Machine
end

