-- ==== Sys2Proof/Machine/Assembler.lean ====
section
/-! DEFINITION. The text assembly of the host: the assembler (R76 to R81) and the disassembler (R83). Texts are lists of
characters. What the rules leave to the writer of an assembler is log entries 12, 14 and 15. -/

namespace Sys2Proof.Machine

/-- Why a line has no word (R81). -/
inductive LineProblem where
  /-- The text after `#` is not one or more decimal digits. -/
  | malformedImmediate
  /-- An immediate above 255. -/
  | immediateTooLarge
  /-- White space inside the operand text: a space or a tab (R81), or another of `isBlankChar` (log entry 14). -/
  | whiteSpaceInOperands
  /-- White space other than a space between mnemonic and operand text: a tab (R81), or another of `isBlankChar` (log
  entry 14). -/
  | badSeparator
  /-- A character outside ASCII. -/
  | nonAscii
  /-- The line has index 255: the program has more than 255 non-blank lines. -/
  | tooManyLines
  deriving DecidableEq, Repr

/-- Why the assembler refuses a program, and which line it says (R81). -/
structure AsmRefusal where
  /-- The instruction index of the line (DESIGN CHOICE, log entry 12). -/
  index : Nat
  /-- What is wrong with it. -/
  problem : LineProblem
  deriving DecidableEq, Repr

/-- The pieces of a text between the occurrences of a character. -/
def splitAtChar (c : Char) : List Char → List (List Char)
  | [] => [[]]
  | x :: xs =>
    match splitAtChar c xs with
    | [] => [[x]]
    | p :: ps => if x = c then [] :: p :: ps else (x :: p) :: ps

/-- White space at the ends of a line (R76; DESIGN CHOICE, log entry 12). -/
def isBlankChar (c : Char) : Bool :=
  c == ' ' || c == '\t' || c.toNat == 11 || c.toNat == 12 || c.toNat == 13

/-- A line without the white space at its ends (R76). -/
def trimLine (l : List Char) : List Char :=
  ((l.dropWhile isBlankChar).reverse.dropWhile isBlankChar).reverse

/-- The non-blank lines of a text, trimmed, in order: instructions `0 .. PEND-1` (R76). -/
def programLines (text : List Char) : List (List Char) :=
  ((splitAtChar '\n' text).map trimLine).filter fun l => !l.isEmpty

/-- The opcode a mnemonic assembles to; every unknown one is 0xF (R80). -/
def opcodeOfMnemonic (m : List Char) : BitVec 4 :=
  if m = ['m', 'o', 'v'] then 0x1
  else if m = ['a', 'd', 'd'] then 0x2
  else if m = ['s', 'u', 'b'] then 0x3
  else if m = ['c', 'm', 'p'] then 0x4
  else if m = ['c', 'g', 't'] then 0x5
  else if m = ['c', 'l', 't'] then 0x6
  else if m = ['j', 'm', 'p'] then 0x7
  else if m = ['j', 'n', 'z'] then 0x8
  else if m = ['j', 'z', 'e'] then 0x9
  else 0xF

/-- The register field a name assembles to; every other token is 0xFF (R79). -/
def fieldOfName (name : List Char) : Byte :=
  if name = ['r', '0'] then 0
  else if name = ['r', '1'] then 1
  else if name = ['s'] then 2
  else if name = ['o', 'v', 'f', 'l'] then 3
  else if name = ['u', 'd', 'f', 'l'] then 4
  else if name = ['p', 'c'] then 5
  else 0xFF

/-- A decimal digit. -/
def isDigitChar (c : Char) : Bool := 48 ≤ c.toNat && c.toNat ≤ 57

/-- The value of one or more decimal digits (R81). -/
def decimalValue (ds : List Char) : Option Nat :=
  if ds ≠ [] ∧ ds.all isDigitChar then some (ds.foldl (fun acc c => 10 * acc + (c.toNat - 48)) 0) else none

/-- An operand token (R79, R81). -/
def assembleToken : List Char → Except LineProblem Operand
  | '#' :: ds =>
    match decimalValue ds with
    | none => .error .malformedImmediate
    | some v => if v ≤ 255 then .ok (.imm (BitVec.ofNat 8 v)) else .error .immediateTooLarge
  | name => .ok (.reg (fieldOfName name))

/-- Operands A and B of the tokens; a missing token is blank and a surplus one is dropped (R78). -/
def assembleTokens : List (List Char) → Except LineProblem (Operand × Operand)
  | [] => .ok (.blank, .blank)
  | [p] => do
    let a ← assembleToken p
    return (a, .blank)
  | p :: q :: _ => do
    let a ← assembleToken p
    let b ← assembleToken q
    return (a, b)

/-- The opcode text of a line, up to the first space (R77). -/
def mnemonicPart (line : List Char) : List Char := line.takeWhile (· ≠ ' ')

/-- What follows the first space of a line (R77). -/
def operandPart (line : List Char) : List Char := (line.dropWhile (· ≠ ' ')).drop 1

/-- One trimmed line (R77 to R81). White space inside it is refused wherever `trimLine` would cut it at an end: R81 names the
space and the tab, and that the other three are refused too is DESIGN CHOICE, safe (log entry 14). The order of the checks is
DESIGN CHOICE (log entry 12). -/
def assembleLine (line : List Char) : Except LineProblem InstrWord :=
  let m := mnemonicPart line
  let rest := operandPart line
  if line.any fun c => 127 < c.toNat then .error .nonAscii
  else if m.any isBlankChar then .error .badSeparator
  else if trimLine rest = [] then .ok (packWord (opcodeOfMnemonic m) 0 .blank .blank)
  else if rest.any isBlankChar then .error .whiteSpaceInOperands
  else do
    let tokens := splitAtChar ',' rest
    let (a, b) ← assembleTokens tokens
    return packWord (opcodeOfMnemonic m) (BitVec.ofNat 2 (min tokens.length 3)) a b

/-- The lines of a program from instruction index `i` on; the first refused line refuses the program (R81). The line at index
255 is one too many, and is refused for that alone: where an earlier line is refused too, the earlier one is the line the
refusal names (DESIGN CHOICE, log entry 15: the spec does not say which refusal comes first). -/
def assembleLines (i : Nat) : List (List Char) → Except AsmRefusal (List InstrWord)
  | [] => .ok []
  | l :: ls =>
    if Config.maxProgram ≤ i then .error ⟨i, .tooManyLines⟩
    else
      match assembleLine l with
      | .error p => .error ⟨i, p⟩
      | .ok w =>
        match assembleLines (i + 1) ls with
        | .error r => .error r
        | .ok ws => .ok (w :: ws)

/-- The assembler (R76 to R81). -/
def assemble (text : List Char) : Except AsmRefusal (List InstrWord) := assembleLines 0 (programLines text)

/-- Steps 1 to 3 of the host protocol (R185): assemble, load, Reset. None for a refused text. -/
def bootText (text : List Char) (hasCgtClt : Bool) : Option State :=
  match assemble text with
  | .ok ws => loadProgram ws hasCgtClt
  | .error _ => none

/-! ## Disassembly (R83) -/

/-- The mnemonic of an instruction (R63). -/
def mnemonicText : Instr → List Char
  | .mov _ _ _ => ['m', 'o', 'v']
  | .add _ _ _ => ['a', 'd', 'd']
  | .sub _ _ _ => ['s', 'u', 'b']
  | .cmp _ _ _ => ['c', 'm', 'p']
  | .cgt _ _ _ => ['c', 'g', 't']
  | .clt _ _ _ => ['c', 'l', 't']
  | .jmp _ _ _ => ['j', 'm', 'p']
  | .jnz _ _ _ => ['j', 'n', 'z']
  | .jze _ _ _ => ['j', 'z', 'e']

/-- The name of a register (R20). -/
def regName : Reg → List Char
  | .r0 => ['r', '0']
  | .r1 => ['r', '1']
  | .s => ['s']
  | .ovfl => ['o', 'v', 'f', 'l']
  | .udfl => ['u', 'd', 'f', 'l']
  | .pc => ['p', 'c']

/-- A digit's character. -/
def digitChar (d : Nat) : Char := if d < 10 then Char.ofNat (48 + d) else Char.ofNat (55 + d)

/-- A byte in decimal, without leading zeros. -/
def decimalText (v : Byte) : List Char :=
  let n := v.toNat
  if n < 10 then [digitChar n]
  else if n < 100 then [digitChar (n / 10), digitChar (n % 10)]
  else [digitChar (n / 100), digitChar (n / 10 % 10), digitChar (n % 10)]

/-- An operand: `#<decimal>`, a register name, or `%<decimal>` for a number that names no register. -/
def operandText : Operand → List Char
  | .imm v => '#' :: decimalText v
  | .reg f =>
    match regOfNumber f with
    | some r => regName r
    | none => '%' :: decimalText f

/-- The hexadecimal digit of a word at a nibble. -/
def hexDigit (w : InstrWord) (nibble : Nat) : Char := digitChar (w.extractLsb' (4 * nibble) 4).toNat

/-- A word as raw data: `.word 0x` and six hexadecimal digits. -/
def rawText (w : InstrWord) : List Char :=
  ['.', 'w', 'o', 'r', 'd', ' ', '0', 'x', hexDigit w 5, hexDigit w 4, hexDigit w 3, hexDigit w 2, hexDigit w 1, hexDigit w 0]

/-- An instruction whose `N` is the canonical one: operand B is printed for the six two-operand mnemonics. -/
def instrText (i : Instr) : List Char :=
  mnemonicText i ++ ' ' :: operandText i.opA ++ (if i.minTokens = 2 then ',' :: operandText i.opB else [])

/-- The disassembler (R83), total on all words. -/
def disassemble (w : InstrWord) : List Char :=
  match decode w with
  | .ok i => if i.count = i.minTokens then instrText i else rawText w
  | .error _ => rawText w

end Sys2Proof.Machine
end

