-- ==== Sys2Proof/Machine/Run.lean ====
section
/-! DEFINITION. A run: the sequence of states a start state gives (R102), its result (R187), the executor under fuel (R102,
U11), and the host protocol from the program to the snapshot (R185). -/

namespace Sys2Proof.Machine

/-- `σk` of the run that starts in `t` (R102); none where the run ended before it. -/
def stateAt : Nat → State → Option State
  | 0, t => some t
  | k + 1, t =>
    match step t with
    | .next u => stateAt k u
    | _ => none

/-- `u` is the result of the run that starts in `t`: the first state of the run that is not running (R102, R187). No state
follows it, so it is the first. -/
def RunEndsIn (t u : State) : Prop := ∃ k, stateAt k t = some u ∧ u.condition ≠ .running

/-- The run that starts in `t` never ends (R102). -/
def RunsForever (t : State) : Prop := ∀ k, ∃ u, stateAt k t = some u ∧ u.condition = .running

/-- The executor: the result of the run that starts in `t`, if it is reached in at most `fuel` steps; none when the fuel is
used up (R102, U11). The fuel is the executor's, not the machine's. -/
def runFuel : Nat → State → Option State
  | 0, t => if t.condition = .running then none else some t
  | fuel + 1, t =>
    match step t with
    | .next u => runFuel fuel u
    | .fault _ => some t
    | .refused _ => none

/-- The run of a loaded program from `Reset(PEND)` (R102, R185 steps 2 to 5). None for a program the host refuses, or when the
fuel is used up. -/
def runProgram (words : List InstrWord) (hasCgtClt : Bool) (fuel : Nat) : Option State :=
  (loadProgram words hasCgtClt).bind (runFuel fuel)

/-- The whole host protocol (R185): assemble, load, Reset, run, read the snapshot and the latch. The refusal of a refused text;
none when the fuel is used up. -/
def runText (text : List Char) (hasCgtClt : Bool) (fuel : Nat) : Except AsmRefusal (Option Ports) :=
  match assemble text with
  | .error r => .error r
  | .ok words => .ok ((runProgram words hasCgtClt fuel).map State.ports)

end Sys2Proof.Machine
end

