-- ==== Sys2Proof/Safety.lean ====
section
/-! DEFINITION. The terms claims are stated in: the conditions of a state and the good end (R7, R161, R187), what a raise
leaves (R160), what a step keeps, the invariant of the machine (R36), and the fault a word raises as the priority list
of R155 gives it, written from the word's fields and not from the meanings. -/

namespace Sys2Proof.Machine

/-- `running` (R7). -/
def State.Running (t : State) : Prop := t.fcode = 0 ∧ t.pc.toNat < t.pend.toNat

/-- `halted` (R7): the only good end of a run (R161, R187). -/
def State.Halted (t : State) : Prop := t.fcode = 0 ∧ t.pend.toNat ≤ t.pc.toNat

/-- `faulted` (R7): an end that is never good. -/
def State.Faulted (t : State) : Prop := t.fcode ≠ 0

/-- The six registers of two states agree. -/
def SameRegs (t u : State) : Prop :=
  t.r0 = u.r0 ∧ t.r1 = u.r1 ∧ t.s = u.s ∧ t.ovfl = u.ovfl ∧ t.udfl = u.udfl ∧ t.pc = u.pc

/-- The fault latches of two states agree. -/
def SameLatch (t u : State) : Prop := t.fcode = u.fcode ∧ t.fline = u.fline ∧ t.finfo = u.finfo

/-- The inputs of two states agree (R31): the length, the option, and every byte of instruction memory. -/
def SameInputs (t u : State) : Prop :=
  t.pend = u.pend ∧ t.hasCgtClt = u.hasCgtClt ∧ t.imem = u.imem ∧ ∀ a, t.imem.readByte a = u.imem.readByte a

/-- `u` is what raising a fault of that code and info leaves of `t` (R160): the latch is loaded and nothing else changes. -/
def Raised (t u : State) (code : BitVec 3) (info : BitVec 9) : Prop :=
  u = { t with fcode := code, fline := t.pc, finfo := info }

/-- `u` has the `pc` of `t` plus one, saturated (R25), and is otherwise `t`. -/
def OnlyAdvanced (t u : State) : Prop :=
  u = { t with pc := u.pc } ∧ u.pc.toNat = min (t.pc.toNat + 1) 255

/-- `u` is `t` after destination `d` took `v`, the flag register (if one is named) took 1 before that, and `pc` advanced by
one, saturated, from what the writes left in it (R25, R99, R100); nothing else changed. -/
def Wrote (t u : State) (d : Reg) (v : Byte) (flag : Option Reg) : Prop :=
  (∀ r, r ≠ .pc → u.getReg r = if r = d then v else if some r = flag then 1 else t.getReg r) ∧
  u.pc.toNat = min ((if d = .pc then v else t.pc).toNat + 1) 255 ∧
  SameLatch t u ∧ SameInputs t u

/-- The value of operand `o` in `t` is `v`: an immediate is its field, a register field of 0 to 5 is that register in the
order of R20. -/
def HasValue (t : State) (o : Operand) (v : Byte) : Prop :=
  match o with
  | .imm f => v = f
  | .reg f =>
    (f = 0 ∧ v = t.r0) ∨ (f = 1 ∧ v = t.r1) ∨ (f = 2 ∧ v = t.s) ∨ (f = 3 ∧ v = t.ovfl) ∨ (f = 4 ∧ v = t.udfl) ∨ (f = 5 ∧ v = t.pc)

/-- A token that raises UnknownRegister when it is read: a register field above 5 (R94). -/
def Unreadable (o : Operand) : Prop := ∃ f : Byte, o = .reg f ∧ 5 < f.toNat

/-- A token that raises UnknownRegister when it is written: a register field above 5, or an immediate (R95). -/
def Unwritable (o : Operand) : Prop := Unreadable o ∨ ∃ f : Byte, o = .imm f

/-- The register an instruction names as its destination, if it is a `mov`, `add` or `sub` with a valid one (R62). -/
def destinationOf : Instr → Option Reg
  | .mov _ (.reg f) _ | .add _ _ (.reg f) | .sub _ _ (.reg f) => regOfNumber f
  | _ => none

/-- An `OP` outside the dispatch table of a core (R68, R152). -/
def absentOpcode (t : State) (op : BitVec 4) : Bool :=
  op == 0x0 || 0xA ≤ op.toNat || ((op == 0x5 || op == 0x6) && !t.hasCgtClt)

/-- What `FINFO` holds for each code (R150). -/
def infoFits (t : State) : Prop :=
  (t.fcode = 2 → ∃ op : BitVec 4, t.finfo = op.setWidth 9 ∧ absentOpcode t op = true) ∧
  (t.fcode = 3 → t.finfo = 0) ∧
  (t.fcode = 4 → t.finfo = 1) ∧
  (t.fcode = 5 → 5 < t.finfo.toNat) ∧
  (t.fcode = 6 → t.pend.toNat < t.finfo.toNat ∧ t.finfo.toNat ≤ 255)

/-- The invariant of the machine (R28, R36, R150, R181) with the canonical form of memory. -/
def State.Inv (t : State) : Prop :=
  t.fcode.toNat ≤ 6 ∧
  (t.fcode = 0 → t.fline = 0 ∧ t.finfo = 0) ∧
  (t.fcode ≠ 0 → t.fline = t.pc) ∧
  (t.fcode ≠ 0 → t.fcode ≠ 1 → t.fline.toNat < t.pend.toNat) ∧
  (t.fcode = 1 → t.fline = 0 ∧ t.finfo = 0) ∧
  (t.pend = 0 ↔ t.fcode = 1) ∧
  infoFits t ∧
  t.imem.wf = true

/-- UnknownRegister for the first operand that cannot be read. -/
def firstUnreadable : List Operand → Option Raise
  | [] => none
  | o :: os => if o.readable then firstUnreadable os else some ⟨.unknownRegister, o.token⟩

/-- UnknownRegister for a destination that cannot be written. -/
def badDestination (o : Operand) : Option Raise :=
  if o.writable then none else some ⟨.unknownRegister, o.token⟩

/-- The value of an operand that can be read. -/
def readableValue (t : State) : Operand → Byte
  | .imm f => f
  | .reg f => ((regOfNumber f).map t.getReg).getD 0

/-- OutOfBoundsJump for a target above `PEND`. -/
def badTarget (t : State) (o : Operand) : Option Raise :=
  if t.pend.toNat < (readableValue t o).toNat then some ⟨.outOfBoundsJump, (readableValue t o).setWidth 9⟩ else none

/-- Items 4 to 6 of R155: the operand checks of an opcode of the dispatch table. -/
def operandFault (t : State) (op : BitVec 4) (n : TokenCount) (a b : Operand) : Option Raise :=
  if op.toNat ≤ 6 && n.toNat < 2 then some ⟨.arity, n.setWidth 9⟩
  else if op = 0x1 then (firstUnreadable [b]).or (badDestination a)
  else if op = 0x2 || op = 0x3 then (firstUnreadable [a, b]).or (badDestination b)
  else if op.toNat ≤ 6 then firstUnreadable [a, b]
  else (firstUnreadable [a]).or (badTarget t a)

/-- The fault the word `w` raises in a running state `t`, by the priority list of R155; none when the step succeeds. -/
def faultOf (t : State) (w : InstrWord) : Option Raise :=
  if nField w = 0 then some ⟨.missingOperand, 0⟩
  else if absentOpcode t (opField w) then some ⟨.unknownOpcode, (opField w).setWidth 9⟩
  else if opField w = 0x8 && t.s = 0 then none
  else if opField w = 0x9 && t.s ≠ 0 then none
  else operandFault t (opField w) (nField w) (operandA w) (operandB w)

end Sys2Proof.Machine
end

