-- ==== Sys2Proof/Certificates/Slice0/Obligations.lean ====
section
/-! DEFINITION. The statements for the provers. Rules R<n> are those of spec/; log entries are notes/assumptions/<n>.md. -/

open Sys2Proof Sys2Proof.Machine

/-! ## Encoding -/

/-- Headline: the decoder gives back every instruction the encoder writes, every field at every value (R61, R63). -/
def Obligations.DecodeOfEncodeIsIdentity : Prop :=
  ∀ i : Instr, decode (encode i) = .ok i

/-- A word that decodes is the encoding of what it decodes to: no bit of it is dropped (R61, R63). -/
def Obligations.EncodeOfDecodeIsIdentity : Prop :=
  ∀ (w : InstrWord) (i : Instr), decode w = .ok i → encode i = w

/-- R61: the six fields lie, from the most significant bit down, as OP, N, MA, MB, A, B, in 4, 2, 1, 1, 8 and 8 bits, and
mode 0 makes a register operand of the field, mode 1 an immediate. -/
def Obligations.FieldsLieAsInF24 : Prop :=
  ∀ (op : BitVec 4) (n : BitVec 2) (ma mb : BitVec 1) (a b : Byte),
    let w : InstrWord := op ++ n ++ ma ++ mb ++ a ++ b
    opField w = op ∧ nField w = n ∧ maField w = ma ∧ mbField w = mb ∧ aField w = a ∧ bField w = b ∧
    (ma = 0 → operandA w = .reg a) ∧ (ma = 1 → operandA w = .imm a) ∧
    (mb = 0 → operandB w = .reg b) ∧ (mb = 1 → operandB w = .imm b)

/-- The opcode map (R63) and the reserved opcodes (R68): OP alone selects the instruction and the other fields are its
operands. Which of its two names a rejected word gets follows the order of R68. That a word of a known opcode with N = 0
decodes is the model's choice, log entry 7. -/
def Obligations.OpcodeAloneSelectsTheInstruction : Prop :=
  ∀ w : InstrWord,
    let n := nField w
    let a := operandA w
    let b := operandB w
    (opField w = 0x1 → decode w = .ok (.mov n a b)) ∧
    (opField w = 0x2 → decode w = .ok (.add n a b)) ∧
    (opField w = 0x3 → decode w = .ok (.sub n a b)) ∧
    (opField w = 0x4 → decode w = .ok (.cmp n a b)) ∧
    (opField w = 0x5 → decode w = .ok (.cgt n a b)) ∧
    (opField w = 0x6 → decode w = .ok (.clt n a b)) ∧
    (opField w = 0x7 → decode w = .ok (.jmp n a b)) ∧
    (opField w = 0x8 → decode w = .ok (.jnz n a b)) ∧
    (opField w = 0x9 → decode w = .ok (.jze n a b)) ∧
    (opField w = 0x0 ∨ 0xA ≤ (opField w).toNat →
      decode w = .error (if n = 0 then .missingOperand else .reservedOpcode (opField w)))

/-- The worked encodings of R71 (a table the spec marks as derived): the words are read as the lines say. That the last word,
`jmp` without operand text (`N` = 0), decodes to that instruction is the model's choice, log entry 7: its step raises
MissingOperand. -/
def Obligations.WorkedEncodingsDecode : Prop :=
  decode 0x1900FF = .ok (.mov 2 (.reg 0) (.imm 255)) ∧
  decode 0x19010A = .ok (.mov 2 (.reg 1) (.imm 10)) ∧
  decode 0x280001 = .ok (.add 2 (.reg 0) (.reg 1)) ∧
  decode 0x3A3201 = .ok (.sub 2 (.imm 50) (.reg 1)) ∧
  decode 0x2A0100 = .ok (.add 2 (.imm 1) (.reg 0)) ∧
  decode 0xFA0100 = .error (.reservedOpcode 0xF) ∧
  decode 0x760200 = .ok (.jmp 1 (.imm 2) (.reg 0)) ∧
  decode 0x190001 = .ok (.mov 2 (.reg 0) (.imm 1)) ∧
  decode 0x190101 = .ok (.mov 2 (.reg 1) (.imm 1)) ∧
  decode 0x490000 = .ok (.cmp 2 (.reg 0) (.imm 0)) ∧
  decode 0x960200 = .ok (.jze 1 (.imm 2) (.reg 0)) ∧
  decode 0x840100 = .ok (.jnz 1 (.reg 1) (.reg 0)) ∧
  decode 0x140000 = .ok (.mov 1 (.reg 0) (.reg 0)) ∧
  decode 0x700000 = .ok (.jmp 0 (.reg 0) (.reg 0))

/-- The interchange serialisation of R44: three bytes a word, most significant first, read back from a stream. It speaks of
every instruction, also of those with `N` = 0 and of `cgt` and `clt` without the option, which decode by the model's choice,
log entries 7 and 8. -/
def Obligations.ByteStreamCarriesWords : Prop :=
  bytesOfWord 0x1900FF = [0x19, 0x00, 0xFF] ∧
  ∀ (i : Instr) (rest : List Byte), decodeBytes (bytesOfWord (encode i) ++ rest) = .ok (i, rest)

/-! ## The step -/

/-- A step runs the decoded instruction: in a running state whose word at `pc` decodes to `i`, the step is the meaning of
`i`, with nothing around it (R90). -/
def Obligations.StepRunsTheDecodedInstruction : Prop :=
  ∀ (s : State) (i : Instr), s.Running → decode (s.imem.readWord s.pc.toNat) = .ok i → step s = exec i s

/-- R7: a state is in exactly one of the three conditions, and only a running state has a step. -/
def Obligations.OnlyRunningStatesHaveAStep : Prop :=
  ∀ s : State,
    (s.Running ∨ s.Halted ∨ s.Faulted) ∧
    ¬(s.Running ∧ s.Halted) ∧ ¬(s.Running ∧ s.Faulted) ∧ ¬(s.Halted ∧ s.Faulted) ∧
    ((∃ t, step s = .next t) ↔ s.Running)

/-- How the model answers where there is no step: a fault outcome named for the condition (the model's choice, log
entry 6). -/
def Obligations.StoppedStatesAnswerByName : Prop :=
  ∀ s : State, (s.Halted → step s = .fault .halted) ∧ (s.Faulted → step s = .fault .faulted)

/-- Words at or above `PEND` never influence a step (R42, which the spec marks as derived): replacing instruction memory by
one that agrees below `PEND` changes nothing but that memory. -/
def Obligations.WordsAbovePendAreNeverSeen : Prop :=
  ∀ (s t : State) (m : Memory),
    (∀ i, i < s.pend.toNat → m.readWord i = s.imem.readWord i) → step s = .next t →
    step { s with imem := m } = .next { t with imem := m }

/-- No step changes the program, its length or the option (R31, R41, R52), nor any byte of instruction memory. -/
def Obligations.StepKeepsTheInputs : Prop :=
  ∀ s t : State, step s = .next t → SameInputs s t

/-! ## Registers and operand resolution -/

/-- The six registers have the numbers of R20, are separate storage, none is hard-wired and a write is stored as it is
(R20, R22). -/
def Obligations.RegistersAreSixSeparateBytes : Prop :=
  (Reg.number .r0 = 0 ∧ Reg.number .r1 = 1 ∧ Reg.number .s = 2 ∧ Reg.number .ovfl = 3 ∧ Reg.number .udfl = 4 ∧
    Reg.number .pc = 5) ∧
  ∀ (s : State) (r q : Reg) (v : Byte),
    (s.setReg r v).getReg q = (if q = r then v else s.getReg q) ∧
    SameLatch s (s.setReg r v) ∧ SameInputs s (s.setReg r v)

/-- R94: what `Resolve` answers. -/
def Obligations.ResolveGivesTheOperandValue : Prop :=
  ∀ (s : State) (f v : Byte),
    resolve s (.imm f) = .ok f ∧
    (HasValue s (.reg f) v → resolve s (.reg f) = .ok v) ∧
    (5 < f.toNat → resolve s (.reg f) = .error ⟨.unknownRegister, (0#1 ++ f : BitVec 9)⟩)

/-- R95: what `DstReg` answers. -/
def Obligations.DstRegGivesTheDestination : Prop :=
  ∀ f : Byte,
    (f.toNat ≤ 5 → ∃ d, dstReg (.reg f) = .ok d ∧ d.number = f) ∧
    (5 < f.toNat → dstReg (.reg f) = .error ⟨.unknownRegister, (0#1 ++ f : BitVec 9)⟩) ∧
    dstReg (.imm f) = .error ⟨.unknownRegister, (1#1 ++ f : BitVec 9)⟩

/-! ## The instructions -/

/-- R110, `mov`: encoding, faults in their order, effect. -/
def Obligations.MovCopiesAValue : Prop :=
  (∀ w, opField w = 0x1 → nField w ≠ 0 → decode w = .ok (.mov (nField w) (operandA w) (operandB w))) ∧
  (∀ n a b, (Instr.mov n a b).wf = true → n = 2 ∧ a.mode = 0) ∧
  (∀ s a b, ∃ t, exec (.mov 1 a b) s = .next t ∧ Raised s t 4 1) ∧
  (∀ s n a b, 2 ≤ n.toNat → Unreadable b → ∃ t, exec (.mov n a b) s = .next t ∧ Raised s t 5 b.token) ∧
  (∀ s n a b v, 2 ≤ n.toNat → HasValue s b v → Unwritable a →
    ∃ t, exec (.mov n a b) s = .next t ∧ Raised s t 5 a.token) ∧
  (∀ s n d b v, 2 ≤ n.toNat → HasValue s b v →
    ∃ t, exec (.mov n (.reg d.number) b) s = .next t ∧ Wrote s t d v none)

/-- R120, `add`: encoding, faults in their order, clamped sum and `ovfl`. -/
def Obligations.AddClampsAtTheTop : Prop :=
  (∀ w, opField w = 0x2 → nField w ≠ 0 → decode w = .ok (.add (nField w) (operandA w) (operandB w))) ∧
  (∀ n a b, (Instr.add n a b).wf = true → n = 2 ∧ b.mode = 0) ∧
  (∀ s a b, ∃ t, exec (.add 1 a b) s = .next t ∧ Raised s t 4 1) ∧
  (∀ s n a b, 2 ≤ n.toNat → Unreadable a → ∃ t, exec (.add n a b) s = .next t ∧ Raised s t 5 a.token) ∧
  (∀ s n a b x, 2 ≤ n.toNat → HasValue s a x → Unwritable b →
    ∃ t, exec (.add n a b) s = .next t ∧ Raised s t 5 b.token) ∧
  (∀ s n a d x, 2 ≤ n.toNat → HasValue s a x →
    let sum := x.toNat + (s.getReg d).toNat
    ∃ t, exec (.add n a (.reg d.number)) s = .next t ∧
      Wrote s t d (BitVec.ofNat 8 (if 256 ≤ sum then 255 else sum)) (if 256 ≤ sum then some .ovfl else none))

/-- R121, `sub`: encoding, faults in their order, clamped difference (destination minus source) and `udfl`. -/
def Obligations.SubClampsAtZero : Prop :=
  (∀ w, opField w = 0x3 → nField w ≠ 0 → decode w = .ok (.sub (nField w) (operandA w) (operandB w))) ∧
  (∀ n a b, (Instr.sub n a b).wf = true → n = 2 ∧ b.mode = 0) ∧
  (∀ s a b, ∃ t, exec (.sub 1 a b) s = .next t ∧ Raised s t 4 1) ∧
  (∀ s n a b, 2 ≤ n.toNat → Unreadable a → ∃ t, exec (.sub n a b) s = .next t ∧ Raised s t 5 a.token) ∧
  (∀ s n a b x, 2 ≤ n.toNat → HasValue s a x → Unwritable b →
    ∃ t, exec (.sub n a b) s = .next t ∧ Raised s t 5 b.token) ∧
  (∀ s n a d x, 2 ≤ n.toNat → HasValue s a x →
    let y := s.getReg d
    ∃ t, exec (.sub n a (.reg d.number)) s = .next t ∧
      Wrote s t d (BitVec.ofNat 8 (if y.toNat < x.toNat then 0 else y.toNat - x.toNat))
        (if y.toNat < x.toNat then some .udfl else none))

/-- R130, `cmp`: encoding, faults in their order, `s := (a == b)` on every execution. -/
def Obligations.CmpTestsEquality : Prop :=
  (∀ w, opField w = 0x4 → nField w ≠ 0 → decode w = .ok (.cmp (nField w) (operandA w) (operandB w))) ∧
  (∀ n a b, (Instr.cmp n a b).wf = true → n = 2) ∧
  (∀ s a b, ∃ t, exec (.cmp 1 a b) s = .next t ∧ Raised s t 4 1) ∧
  (∀ s n a b, 2 ≤ n.toNat → Unreadable a → ∃ t, exec (.cmp n a b) s = .next t ∧ Raised s t 5 a.token) ∧
  (∀ s n a b x, 2 ≤ n.toNat → HasValue s a x → Unreadable b →
    ∃ t, exec (.cmp n a b) s = .next t ∧ Raised s t 5 b.token) ∧
  (∀ s n a b x y, 2 ≤ n.toNat → HasValue s a x → HasValue s b y →
    ∃ t, exec (.cmp n a b) s = .next t ∧ Wrote s t .s (if x = y then 1 else 0) none)

/-- `cgt` (R131): encoding, UnknownOpcode without the option, faults in their order, `s := (a > b)` unsigned. That the word
decodes to `cgt` also where the option is false, as the first clause says, is the model's choice, log entry 8. -/
def Obligations.CgtTestsGreater : Prop :=
  (∀ w, opField w = 0x5 → nField w ≠ 0 → decode w = .ok (.cgt (nField w) (operandA w) (operandB w))) ∧
  (∀ n a b, (Instr.cgt n a b).wf = true → n = 2) ∧
  (∀ s n a b, n ≠ 0 → s.hasCgtClt = false → ∃ t, exec (.cgt n a b) s = .next t ∧ Raised s t 2 0x005) ∧
  (∀ s a b, s.hasCgtClt = true → ∃ t, exec (.cgt 1 a b) s = .next t ∧ Raised s t 4 1) ∧
  (∀ s n a b, 2 ≤ n.toNat → s.hasCgtClt = true → Unreadable a →
    ∃ t, exec (.cgt n a b) s = .next t ∧ Raised s t 5 a.token) ∧
  (∀ s n a b x, 2 ≤ n.toNat → s.hasCgtClt = true → HasValue s a x → Unreadable b →
    ∃ t, exec (.cgt n a b) s = .next t ∧ Raised s t 5 b.token) ∧
  (∀ s n a b x y, 2 ≤ n.toNat → s.hasCgtClt = true → HasValue s a x → HasValue s b y →
    ∃ t, exec (.cgt n a b) s = .next t ∧ Wrote s t .s (if y.toNat < x.toNat then 1 else 0) none)

/-- `clt` (R132): encoding, UnknownOpcode without the option, faults in their order, `s := (a < b)` unsigned. That the word
decodes to `clt` also where the option is false, as the first clause says, is the model's choice, log entry 8. -/
def Obligations.CltTestsLess : Prop :=
  (∀ w, opField w = 0x6 → nField w ≠ 0 → decode w = .ok (.clt (nField w) (operandA w) (operandB w))) ∧
  (∀ n a b, (Instr.clt n a b).wf = true → n = 2) ∧
  (∀ s n a b, n ≠ 0 → s.hasCgtClt = false → ∃ t, exec (.clt n a b) s = .next t ∧ Raised s t 2 0x006) ∧
  (∀ s a b, s.hasCgtClt = true → ∃ t, exec (.clt 1 a b) s = .next t ∧ Raised s t 4 1) ∧
  (∀ s n a b, 2 ≤ n.toNat → s.hasCgtClt = true → Unreadable a →
    ∃ t, exec (.clt n a b) s = .next t ∧ Raised s t 5 a.token) ∧
  (∀ s n a b x, 2 ≤ n.toNat → s.hasCgtClt = true → HasValue s a x → Unreadable b →
    ∃ t, exec (.clt n a b) s = .next t ∧ Raised s t 5 b.token) ∧
  (∀ s n a b x y, 2 ≤ n.toNat → s.hasCgtClt = true → HasValue s a x → HasValue s b y →
    ∃ t, exec (.clt n a b) s = .next t ∧ Wrote s t .s (if x.toNat < y.toNat then 1 else 0) none)

/-- R140, `jmp`: encoding, faults in their order, the target stored in `pc` and nothing else. -/
def Obligations.JmpGoesToTheTarget : Prop :=
  (∀ w, opField w = 0x7 → nField w ≠ 0 → decode w = .ok (.jmp (nField w) (operandA w) (operandB w))) ∧
  (∀ n a b, (Instr.jmp n a b).wf = true → n = 1 ∧ b.mode = 0 ∧ b.field = 0) ∧
  (∀ s n a b, n ≠ 0 → Unreadable a → ∃ t, exec (.jmp n a b) s = .next t ∧ Raised s t 5 a.token) ∧
  (∀ s n a b x, n ≠ 0 → HasValue s a x → s.pend.toNat < x.toNat →
    ∃ t, exec (.jmp n a b) s = .next t ∧ Raised s t 6 (x.setWidth 9)) ∧
  (∀ s n a b x, n ≠ 0 → HasValue s a x → x.toNat ≤ s.pend.toNat →
    exec (.jmp n a b) s = .next { s with pc := x })

/-- R141, `jnz`: when `s` is not zero it behaves exactly as `jmp`, else `pc` advances by one and nothing else happens. -/
def Obligations.JnzJumpsWhenNotZero : Prop :=
  (∀ w, opField w = 0x8 → nField w ≠ 0 → decode w = .ok (.jnz (nField w) (operandA w) (operandB w))) ∧
  (∀ n a b, (Instr.jnz n a b).wf = true → n = 1 ∧ b.mode = 0 ∧ b.field = 0) ∧
  (∀ s n a b, n ≠ 0 → s.s ≠ 0 → Unreadable a → ∃ t, exec (.jnz n a b) s = .next t ∧ Raised s t 5 a.token) ∧
  (∀ s n a b x, n ≠ 0 → s.s ≠ 0 → HasValue s a x → s.pend.toNat < x.toNat →
    ∃ t, exec (.jnz n a b) s = .next t ∧ Raised s t 6 (x.setWidth 9)) ∧
  (∀ s n a b x, n ≠ 0 → s.s ≠ 0 → HasValue s a x → x.toNat ≤ s.pend.toNat →
    exec (.jnz n a b) s = .next { s with pc := x }) ∧
  (∀ s n a b, n ≠ 0 → s.s = 0 → ∃ t, exec (.jnz n a b) s = .next t ∧ OnlyAdvanced s t)

/-- R142, `jze`: when `s` is zero it behaves exactly as `jmp`, else `pc` advances by one and nothing else happens. -/
def Obligations.JzeJumpsWhenZero : Prop :=
  (∀ w, opField w = 0x9 → nField w ≠ 0 → decode w = .ok (.jze (nField w) (operandA w) (operandB w))) ∧
  (∀ n a b, (Instr.jze n a b).wf = true → n = 1 ∧ b.mode = 0 ∧ b.field = 0) ∧
  (∀ s n a b, n ≠ 0 → s.s = 0 → Unreadable a → ∃ t, exec (.jze n a b) s = .next t ∧ Raised s t 5 a.token) ∧
  (∀ s n a b x, n ≠ 0 → s.s = 0 → HasValue s a x → s.pend.toNat < x.toNat →
    ∃ t, exec (.jze n a b) s = .next t ∧ Raised s t 6 (x.setWidth 9)) ∧
  (∀ s n a b x, n ≠ 0 → s.s = 0 → HasValue s a x → x.toNat ≤ s.pend.toNat →
    exec (.jze n a b) s = .next { s with pc := x }) ∧
  (∀ s n a b, n ≠ 0 → s.s ≠ 0 → ∃ t, exec (.jze n a b) s = .next t ∧ OnlyAdvanced s t)

/-! ## Consequences the spec spells out -/

/-- R24: an instruction that reads `pc` as an operand reads its own index: in every value position of the nine it acts as
the immediate of that index; and so in `mov r,pc`, `cmp pc,#k`, `add pc,r` and `jmp pc` (whose `pc` is no target above
`PEND` in a running state). -/
def Obligations.ReadingPcGivesTheOwnIndex : Prop :=
  (∀ (s : State) (n : TokenCount) (o : Operand),
    exec (.mov n o (.reg 5)) s = exec (.mov n o (.imm s.pc)) s ∧ exec (.add n (.reg 5) o) s = exec (.add n (.imm s.pc) o) s ∧
    exec (.sub n (.reg 5) o) s = exec (.sub n (.imm s.pc) o) s ∧ exec (.cmp n (.reg 5) o) s = exec (.cmp n (.imm s.pc) o) s ∧
    exec (.cmp n o (.reg 5)) s = exec (.cmp n o (.imm s.pc)) s ∧ exec (.cgt n (.reg 5) o) s = exec (.cgt n (.imm s.pc) o) s ∧
    exec (.cgt n o (.reg 5)) s = exec (.cgt n o (.imm s.pc)) s ∧ exec (.clt n (.reg 5) o) s = exec (.clt n (.imm s.pc) o) s ∧
    exec (.clt n o (.reg 5)) s = exec (.clt n o (.imm s.pc)) s ∧ exec (.jmp n (.reg 5) o) s = exec (.jmp n (.imm s.pc) o) s ∧
    exec (.jnz n (.reg 5) o) s = exec (.jnz n (.imm s.pc) o) s ∧ exec (.jze n (.reg 5) o) s = exec (.jze n (.imm s.pc) o) s) ∧
  (∀ s n d, 2 ≤ n.toNat → d ≠ .pc → ∃ t, exec (.mov n (.reg d.number) (.reg 5)) s = .next t ∧ t.getReg d = s.pc) ∧
  (∀ s n k, 2 ≤ n.toNat → ∃ t, exec (.cmp n (.reg 5) (.imm k)) s = .next t ∧ t.s = if s.pc = k then 1 else 0) ∧
  (∀ s n d, 2 ≤ n.toNat → d ≠ .pc → s.pc.toNat + (s.getReg d).toNat < 256 →
    ∃ t, exec (.add n (.reg 5) (.reg d.number)) s = .next t ∧ (t.getReg d).toNat = s.pc.toNat + (s.getReg d).toNat) ∧
  (∀ s n b, n ≠ 0 → s.Running → exec (.jmp n (.reg 5) b) s = .next s)

/-- A not-taken conditional jump evaluates nothing (R143, the spec's decision D17): its operand may name no register or lie
above `PEND`. -/
def Obligations.NotTakenJumpIgnoresItsOperand : Prop :=
  ∀ (s : State) (n : TokenCount) (a b : Operand), n ≠ 0 →
    (s.s = 0 → ∃ t, exec (.jnz n a b) s = .next t ∧ OnlyAdvanced s t) ∧
    (s.s ≠ 0 → ∃ t, exec (.jze n a b) s = .next t ∧ OnlyAdvanced s t)

/-- Writing `pc` with `mov`, `add` or `sub` is not a jump (R144, which the spec marks as derived): the increment still
applies, there is no bounds check and no fault, and a value whose successor reaches `PEND` halts the core. -/
def Obligations.WritingPcIsNotAJump : Prop :=
  ∀ (s : State) (n : TokenCount) (o : Operand) (x : Byte), 2 ≤ n.toNat → HasValue s o x → s.fcode = 0 →
    ∀ (i : Instr) (v : Nat),
      (i = .mov n (.reg 5) o ∧ v = x.toNat) ∨
      (i = .add n o (.reg 5) ∧ v = min (s.pc.toNat + x.toNat) 255) ∨
      (i = .sub n o (.reg 5) ∧ v = s.pc.toNat - x.toNat) →
      ∃ t, exec i s = .next t ∧ t.fcode = 0 ∧ t.pc.toNat = min (v + 1) 255 ∧
        (s.pend.toNat ≤ min (v + 1) 255 → t.Halted)

/-- How `pc` advances over a step (R25, R100): unchanged by a step that faults, plus one (never wrapping) for every
instruction that neither is a jump nor names `pc` as destination. -/
def Obligations.PcAdvancesByOne : Prop :=
  ∀ (s t : State) (i : Instr), s.Running → decode s.fetch = .ok i → step s = .next t →
    (t.fcode ≠ 0 → t.pc = s.pc) ∧
    (t.fcode = 0 → (i.opcode.toNat ≤ 6 ∧ destinationOf i ≠ some .pc) ∨ (i.opcode = 0x8 ∧ s.s = 0) ∨ (i.opcode = 0x9 ∧ s.s ≠ 0) →
      t.pc.toNat = s.pc.toNat + 1)

/-- R124: overflow and underflow saturate and set their flag whatever the register, and where the destination is that flag
itself the destination value wins (`pc` is incremented after the store, R100). -/
def Obligations.ClampSetsTheFlagOrLosesToTheDestination : Prop :=
  (∀ s n a d x, 2 ≤ n.toNat → HasValue s a x → 256 ≤ x.toNat + (s.getReg d).toNat →
    ∃ t, exec (.add n a (.reg d.number)) s = .next t ∧ t.getReg d = 255 ∧ (d ≠ .ovfl → t.ovfl = 1)) ∧
  (∀ s n a d x, 2 ≤ n.toNat → HasValue s a x → (s.getReg d).toNat < x.toNat →
    ∃ t, exec (.sub n a (.reg d.number)) s = .next t ∧ t.getReg d = (if d = .pc then 1 else 0) ∧ (d ≠ .udfl → t.udfl = 1))

/-- The flags over a step (R26): `ovfl` changes without being named as destination only by an `add` that sets it to 1, `udfl`
only by a `sub` that sets it to 1, `s` only by a comparison that writes 0 or 1. -/
def Obligations.FlagsAreStickyAndOwned : Prop :=
  ∀ (s t : State) (i : Instr), s.Running → decode s.fetch = .ok i → step s = .next t →
    (destinationOf i ≠ some .ovfl → t.ovfl = s.ovfl ∨ (i.opcode = 0x2 ∧ t.ovfl = 1)) ∧
    (destinationOf i ≠ some .udfl → t.udfl = s.udfl ∨ (i.opcode = 0x3 ∧ t.udfl = 1)) ∧
    (destinationOf i ≠ some .s → t.s = s.s ∨ (4 ≤ i.opcode.toNat ∧ i.opcode.toNat ≤ 6 ∧ (t.s = 0 ∨ t.s = 1)))

/-- The flags stay in {0, 1} as long as no instruction names them as destination (R36, which the spec marks as derived). -/
def Obligations.FlagsStayBoolean : Prop :=
  ∀ (s t : State) (i : Instr), s.Running → decode s.fetch = .ok i → step s = .next t →
    destinationOf i ≠ some .s → destinationOf i ≠ some .ovfl → destinationOf i ≠ some .udfl →
    s.s.toNat ≤ 1 → s.ovfl.toNat ≤ 1 → s.udfl.toNat ≤ 1 →
    t.s.toNat ≤ 1 ∧ t.ovfl.toNat ≤ 1 ∧ t.udfl.toNat ≤ 1

/-- `clt a,b` and `cgt b,a` do the same when both operands can be read and the option is there (R132). -/
def Obligations.CltMirrorsCgt : Prop :=
  ∀ (s : State) (n : TokenCount) (a b : Operand) (x y : Byte), s.hasCgtClt = true → HasValue s a x → HasValue s b y →
    exec (.clt n a b) s = exec (.cgt n b a) s

/-- Exactly one of `jnz T` and `jze T` is taken, and the other falls through (R142). -/
def Obligations.JnzAndJzeAreComplementary : Prop :=
  ∀ (s : State) (n : TokenCount) (a b : Operand) (x : Byte), n ≠ 0 → HasValue s a x → x.toNat ≤ s.pend.toNat →
    ∃ t u, OnlyAdvanced s u ∧ t = { s with pc := x } ∧
      ((s.s ≠ 0 ∧ exec (.jnz n a b) s = .next t ∧ exec (.jze n a b) s = .next u) ∨
       (s.s = 0 ∧ exec (.jnz n a b) s = .next u ∧ exec (.jze n a b) s = .next t))

/-- Two words that differ only in fields that are not used behave the same (R69): all operand fields when the step faults
with MissingOperand, UnknownOpcode or Arity or when a conditional jump is not taken, operand B of a jump otherwise. -/
def Obligations.UnusedFieldsAreIgnored : Prop :=
  ∀ (s t : State) (m : Memory),
    let w := s.fetch
    let w' := m.readWord s.pc.toNat
    opField w' = opField w → nField w' = nField w →
    (nField w = 0 ∨ absentOpcode s (opField w) = true ∨ ((opField w).toNat ≤ 6 ∧ nField w = 1) ∨
      (opField w = 0x8 ∧ s.s = 0) ∨ (opField w = 0x9 ∧ s.s ≠ 0) ∨
      (7 ≤ (opField w).toNat ∧ maField w' = maField w ∧ aField w' = aField w)) →
    step s = .next t → step { s with imem := m } = .next { t with imem := m }

/-- Surplus tokens change nothing: N = 3 behaves as N = 2, and for the jumps every N but 0 is the same (R64). -/
def Obligations.SurplusTokensChangeNothing : Prop :=
  (∀ (s : State) (n k : TokenCount) (a b : Operand), 2 ≤ n.toNat → 2 ≤ k.toNat →
    exec (.mov n a b) s = exec (.mov k a b) s ∧ exec (.add n a b) s = exec (.add k a b) s ∧
    exec (.sub n a b) s = exec (.sub k a b) s ∧ exec (.cmp n a b) s = exec (.cmp k a b) s ∧
    exec (.cgt n a b) s = exec (.cgt k a b) s ∧ exec (.clt n a b) s = exec (.clt k a b) s) ∧
  (∀ (s : State) (n k : TokenCount) (a b : Operand), n ≠ 0 → k ≠ 0 →
    exec (.jmp n a b) s = exec (.jmp k a b) s ∧ exec (.jnz n a b) s = exec (.jnz k a b) s ∧
    exec (.jze n a b) s = exec (.jze k a b) s)

/-- Jumping to `PEND` is a clean halt that changes only `pc`, and no step follows (R97, R145). -/
def Obligations.JumpToPendHalts : Prop :=
  ∀ (s : State) (n : TokenCount) (b : Operand), n ≠ 0 → s.Running →
    ∃ t, exec (.jmp n (.imm s.pend) b) s = .next t ∧ t = { s with pc := s.pend } ∧ t.Halted ∧ ∀ u, step t ≠ .next u

/-- `mov r,r` changes nothing but `pc` (R82, R110), `mov pc,pc` included. -/
def Obligations.MovToItselfOnlyAdvances : Prop :=
  ∀ (s : State) (n : TokenCount) (d : Reg), 2 ≤ n.toNat →
    ∃ t, exec (.mov n (.reg d.number) (.reg d.number)) s = .next t ∧ OnlyAdvanced s t

/-! ## Frames -/

/-- The frame of `mov`, `add` and `sub`: only the destination they name, `pc`, and the flag `ovfl` of `add` or `udfl` of
`sub` may change; where the latch changes no register does; every byte of instruction memory reads as before. -/
def Obligations.FrameOfRegisterWriters : Prop :=
  ∀ (s t : State) (i : Instr), i.opcode.toNat ≤ 3 → exec i s = .next t →
    (∀ r, destinationOf i ≠ some r → r ≠ .pc → ¬(i.opcode = 0x2 ∧ r = .ovfl) → ¬(i.opcode = 0x3 ∧ r = .udfl) →
      t.getReg r = s.getReg r) ∧
    (SameLatch s t ∨ SameRegs s t) ∧ SameInputs s t ∧ (∀ a, t.imem.readByte a = s.imem.readByte a)

/-- The frame of `cmp`, `cgt` and `clt`: only `s` and `pc` may change; where the latch changes no register does; every byte
of instruction memory reads as before. -/
def Obligations.FrameOfComparisons : Prop :=
  ∀ (s t : State) (i : Instr), 4 ≤ i.opcode.toNat → i.opcode.toNat ≤ 6 → exec i s = .next t →
    (∀ r, r ≠ .s → r ≠ .pc → t.getReg r = s.getReg r) ∧
    (SameLatch s t ∨ SameRegs s t) ∧ SameInputs s t ∧ (∀ a, t.imem.readByte a = s.imem.readByte a)

/-- The frame of `jmp`, `jnz` and `jze`: only `pc` may change; where the latch changes no register does; every byte of
instruction memory reads as before. -/
def Obligations.FrameOfJumps : Prop :=
  ∀ (s t : State) (i : Instr), 7 ≤ i.opcode.toNat → exec i s = .next t →
    (∀ r, r ≠ .pc → t.getReg r = s.getReg r) ∧
    (SameLatch s t ∨ SameRegs s t) ∧ SameInputs s t ∧ (∀ a, t.imem.readByte a = s.imem.readByte a)

/-! ## Faults -/

/-- R92, R153: a word without operand text raises MissingOperand whatever its opcode is. -/
def Obligations.MissingOperandComesFirst : Prop :=
  ∀ s : State, s.Running → nField s.fetch = 0 → ∃ t, step s = .next t ∧ Raised s t 3 0

/-- R93, R152: a word with operand text and an opcode that is not implemented raises UnknownOpcode before any operand is
examined. -/
def Obligations.UnknownOpcodeComesSecond : Prop :=
  ∀ s : State, s.Running → nField s.fetch ≠ 0 →
    ((opField s.fetch).toNat ∈ [0x0, 0xA, 0xB, 0xC, 0xD, 0xE, 0xF] ∨
      ((opField s.fetch).toNat ∈ [0x5, 0x6] ∧ s.hasCgtClt = false)) →
    ∃ t, step s = .next t ∧ Raised s t 2 ((opField s.fetch).setWidth 9)

/-- R154: with one token the two-operand instructions raise Arity before any operand field is examined, and the jumps
never do. -/
def Obligations.ArityNeedsTwoTokens : Prop :=
  (∀ (s : State) (i : Instr), i.count = 1 → i.opcode.toNat ≤ 4 ∨ (i.opcode.toNat ≤ 6 ∧ s.hasCgtClt = true) →
    ∃ t, exec i s = .next t ∧ Raised s t 4 1) ∧
  (∀ (s t : State) (i : Instr), 7 ≤ i.opcode.toNat → s.fcode ≠ 4 → exec i s = .next t → t.fcode ≠ 4)

/-- R157: OutOfBoundsJump is raised exactly by a taken jump whose target lies above `PEND`. -/
def Obligations.OutOfBoundsJumpIsForTakenJumps : Prop :=
  ∀ (s t : State) (i : Instr), s.Running → decode s.fetch = .ok i → step s = .next t →
    (t.fcode = 6 ↔
      i.count ≠ 0 ∧ (i.opcode = 0x7 ∨ (i.opcode = 0x8 ∧ s.s ≠ 0) ∨ (i.opcode = 0x9 ∧ s.s = 0)) ∧
        ∃ x, HasValue s i.opA x ∧ s.pend.toNat < x.toNat) ∧
    (t.fcode = 6 → ∃ x, HasValue s i.opA x ∧ t.finfo = x.setWidth 9)

/-- R101, R160: a step that raises loads the latch with its cause, `pc` and info, changes nothing else, and no step
follows. -/
def Obligations.RaisingStepOnlyLoadsTheLatch : Prop :=
  ∀ s t : State, step s = .next t → t.fcode ≠ 0 →
    ∃ r : Raise, r.cause ≠ .emptyProgram ∧ Raised s t r.cause.code r.info ∧ ∀ u, step t ≠ .next u

/-- R155: the fault a step raises is the first of the priority list that applies, with its info; where none
applies the step succeeds and the latch stays clear. -/
def Obligations.FaultsFollowThePriorityList : Prop :=
  ∀ s : State, s.Running → ∃ t, step s = .next t ∧
    match faultOf s s.fetch with
    | some r => Raised s t r.cause.code r.info
    | none => t.fcode = 0 ∧ SameLatch s t

/-! ## Reset, the host, the invariant -/

/-- R180: what Reset leaves in any state, a function of `PEND` (and the other inputs) alone; with a program the core runs
from instruction 0. -/
def Obligations.ResetClearsEverything : Prop :=
  ∀ s : State,
    (∀ r, s.applyReset.getReg r = 0) ∧ SameInputs s s.applyReset ∧
    (s.pend = 0 → s.applyReset.fcode = 1 ∧ s.applyReset.fline = 0 ∧ s.applyReset.finfo = 0) ∧
    (s.pend ≠ 0 → s.applyReset.fcode = 0 ∧ s.applyReset.fline = 0 ∧ s.applyReset.finfo = 0 ∧ s.applyReset.Running ∧
      s.applyReset.fetch = s.imem.readWord 0) ∧
    ∀ u : State, SameInputs s u → u.applyReset = s.applyReset

/-- R151, R181: Reset with `PEND` 0 latches EmptyProgram, leaves the registers 0, and nothing executes. -/
def Obligations.EmptyProgramFaultsAtReset : Prop :=
  ∀ s : State, s.pend = 0 →
    s.applyReset.fcode = 1 ∧ s.applyReset.fline = 0 ∧ s.applyReset.finfo = 0 ∧ (∀ r, s.applyReset.getReg r = 0) ∧
    ∀ u, step s.applyReset ≠ .next u

/-- The state the model starts from is `Reset(0)` with nothing loaded and the default option (R33, R180; that nothing is
loaded is the model's choice, log entry 2). -/
def Obligations.ResetStateIsResetOfNothing : Prop :=
  State.reset.applyReset = State.reset ∧ (∀ r, State.reset.getReg r = 0) ∧ State.reset.pend = 0 ∧
    State.reset.fcode = 1 ∧ State.reset.hasCgtClt = true ∧ State.reset.imem = []

/-- The invariant holds after Reset, whatever the inputs (R33, R36). -/
def Obligations.ResetMeetsTheInvariant : Prop :=
  State.reset.Inv ∧ ∀ s : State, s.imem.wf = true → s.applyReset.Inv

/-- Headline: every step keeps the invariant (R28, R36, R150; R36 is marked by the spec as derived). -/
def Obligations.EveryStepKeepsTheInvariant : Prop :=
  ∀ s t : State, s.Inv → step s = .next t → t.Inv

/-- Steps 2 and 3 of the host protocol (R185): a loaded program of at most 255 words reads back word for word, `PEND` is its
length, and after Reset the core runs from instruction 0, or holds EmptyProgram when there is none. -/
def Obligations.LoadedProgramReadsBack : Prop :=
  ∀ (ws : List InstrWord) (opt : Bool), ws.length ≤ 255 →
    ∃ t, loadProgram ws opt = some t ∧ t.pend.toNat = ws.length ∧ t.hasCgtClt = opt ∧ t.imem.wf = true ∧
      (∀ (i : Nat) (h : i < ws.length), t.imem.readWord i = ws[i]) ∧ (∀ r, t.getReg r = 0) ∧
      (ws ≠ [] → t.Running) ∧ (ws = [] → t.fcode = 1)

/-- The word the host places is the one the next step runs, for every encoded instruction, in every state whose instruction
memory has the canonical form, and that form is kept (log entry 3; the form is part of the invariant). -/
def Obligations.PlacedWordRunsNext : Prop :=
  ∀ (s : State) (i : Instr), s.imem.wf = true →
    let t := s.withFetchWord 24 (encode i).toNat
    t.Running ∧ step t = exec i t ∧ t.imem.wf = true

/-- The output signals (R35, the spec's decision D25). That `imem_addr` is `pc` also in a state that is not running is the
model's choice, log entry 16. -/
def Obligations.PortsShowTheState : Prop :=
  ∀ s : State,
    (s.ports.halted = true ↔ s.Halted) ∧ (s.ports.faulted = true ↔ s.Faulted) ∧ s.ports.imemAddr = s.pc ∧
    s.ports.fcode = s.fcode ∧ s.ports.fline = s.fline ∧ s.ports.finfo = s.finfo ∧
    s.ports.r0 = s.r0 ∧ s.ports.r1 = s.r1 ∧ s.ports.s = s.s ∧ s.ports.ovfl = s.ovfl ∧ s.ports.udfl = s.udfl ∧
    s.ports.pc = s.pc

/-! ## Assembly -/

/-- A canonical instruction's printed line assembles back to its word (R70, R83). -/
def Obligations.PrintedLinesAssembleBack : Prop :=
  ∀ i : Instr, i.wf = true → assembleLine (disassemble (encode i)) = .ok (encode i)

/-- Headline: a program of canonical instructions, printed one a line, assembles back to its words in order (R70, R76,
R83). -/
def Obligations.PrintedProgramsAssembleBack : Prop :=
  ∀ is : List Instr, is.length ≤ 255 → (∀ i ∈ is, i.wf = true) →
    assemble (is.flatMap fun i => disassemble (encode i) ++ ['\n']) = .ok (is.map encode)

/-- The immediates the assembler takes are the one-or-more-digit decimals up to 255; it refuses every other (R79, R81). -/
def Obligations.ImmediatesAreDecimalBytes : Prop :=
  ∀ (ds : List Char) (o : Operand),
    assembleToken ('#' :: ds) = .ok o ↔
      ds ≠ [] ∧ (∀ c ∈ ds, 48 ≤ c.toNat ∧ c.toNat ≤ 57) ∧
        ds.foldl (fun acc c => 10 * acc + (c.toNat - 48)) 0 ≤ 255 ∧
        o = .imm (BitVec.ofNat 8 (ds.foldl (fun acc c => 10 * acc + (c.toNat - 48)) 0))

/-- A program assembles line by line, in order, and then loads whatever the option is; or the refusal says the first line that
is refused, which is the line of index 255 where none before it is (R76, R81; which line a refusal names and how is the model's
choice, log entries 12 and 15). -/
def Obligations.AssemblyGivesWordsOrNamesALine : Prop :=
  ∀ text : List Char,
    match assemble text with
    | .ok ws =>
      ws.length = (programLines text).length ∧ ws.length ≤ 255 ∧
      (∀ (i : Nat) (l : List Char), (programLines text)[i]? = some l → ∃ w, ws[i]? = some w ∧ assembleLine l = .ok w) ∧
      ∀ opt, ∃ t, bootText text opt = some t ∧ t.pend.toNat = ws.length
    | .error r =>
      (∀ (j : Nat) (l : List Char), j < r.index → (programLines text)[j]? = some l → ∃ w, assembleLine l = .ok w) ∧
      ∃ l, (programLines text)[r.index]? = some l ∧
        ((r.index = 255 ∧ r.problem = .tooManyLines) ∨ (r.index < 255 ∧ assembleLine l = .error r.problem))

/-! ## Runs -/

/-- R102: a run is the sequence of the states the steps give from its start, as long as they are running; it ends at the first
state that is halted or faulted, which is its one result, or it never ends. The start of a program's run is a Reset of the
loaded inputs. -/
def Obligations.ARunIsTheSequenceOfSteps : Prop :=
  (∀ (ws : List InstrWord) (opt : Bool) (t : State), loadProgram ws opt = some t → t.applyReset = t) ∧
  ∀ start : State,
    stateAt 0 start = some start ∧
    (∀ k u, stateAt (k + 1) start = some u ↔ ∃ t, stateAt k start = some t ∧ t.Running ∧ step t = .next u) ∧
    (∀ k t, stateAt k start = some t →
      (t.Running ∧ ∃ u, stateAt (k + 1) start = some u) ∨ ((t.Halted ∨ t.Faulted) ∧ RunEndsIn start t ∧ ∀ j, k < j → stateAt j start = none)) ∧
    (∀ t u, RunEndsIn start t → RunEndsIn start u → t = u) ∧
    (∀ t, RunEndsIn start t → t.Halted ∨ t.Faulted) ∧
    (RunsForever start ↔ ¬∃ t, RunEndsIn start t)

/-- The executor under fuel gives the result of a run exactly when the run reaches it in at most that many steps, and no answer
for a run that never ends (R102, R187). -/
def Obligations.ExecutorFindsTheResult : Prop :=
  ∀ start t : State,
    (∀ fuel, runFuel fuel start = some t ↔ ∃ k, k ≤ fuel ∧ stateAt k start = some t ∧ (t.Halted ∨ t.Faulted)) ∧
    (RunEndsIn start t ↔ ∃ fuel, runFuel fuel start = some t) ∧
    (RunsForever start → ∀ fuel, runFuel fuel start = none)
end

