-- ==== Sys2Proof/Laws/Encoding.lean ====
section
/-! SUPPORT. The fields of a packed word, and the word of its fields. -/

namespace Sys2Proof

/-- A word is its six fields, most significant first. -/
theorem append_fields (w : InstrWord) :
    (opField w ++ nField w ++ maField w ++ mbField w ++ aField w ++ bField w : InstrWord) = w := by
  apply BitVec.eq_of_getLsbD_eq
  intro i hi
  simp only [opField, nField, maField, mbField, aField, bField, BitVec.getLsbD_append, BitVec.getLsbD_extractLsb']
  interval_cases i <;> simp

theorem operandOf_mode_field (o : Operand) : operandOf o.mode o.field = o := by
  cases o <;> rfl

theorem operandOf_mode (m : BitVec 1) (f : Byte) : (operandOf m f).mode = m := by
  unfold operandOf
  split
  · simp_all [Operand.mode]
  · obtain rfl | rfl : m = 0 ∨ m = 1 := by revert m; decide
    · contradiction
    · rfl

theorem operandOf_field (m : BitVec 1) (f : Byte) : (operandOf m f).field = f := by
  unfold operandOf
  split <;> rfl

variable (op : BitVec 4) (n : TokenCount) (a b : Operand)

@[simp] theorem opField_packWord : opField (packWord op n a b) = op := by
  apply BitVec.eq_of_getLsbD_eq
  intro i hi
  simp only [opField, packWord, BitVec.getLsbD_append, BitVec.getLsbD_extractLsb']
  interval_cases i <;> simp

@[simp] theorem nField_packWord : nField (packWord op n a b) = n := by
  apply BitVec.eq_of_getLsbD_eq
  intro i hi
  simp only [nField, packWord, BitVec.getLsbD_append, BitVec.getLsbD_extractLsb']
  interval_cases i <;> simp

@[simp] theorem maField_packWord : maField (packWord op n a b) = a.mode := by
  apply BitVec.eq_of_getLsbD_eq
  intro i hi
  simp only [maField, packWord, BitVec.getLsbD_append, BitVec.getLsbD_extractLsb']
  interval_cases i; simp

@[simp] theorem mbField_packWord : mbField (packWord op n a b) = b.mode := by
  apply BitVec.eq_of_getLsbD_eq
  intro i hi
  simp only [mbField, packWord, BitVec.getLsbD_append, BitVec.getLsbD_extractLsb']
  interval_cases i; simp

@[simp] theorem aField_packWord : aField (packWord op n a b) = a.field := by
  apply BitVec.eq_of_getLsbD_eq
  intro i hi
  simp only [aField, packWord, BitVec.getLsbD_append, BitVec.getLsbD_extractLsb']
  interval_cases i <;> simp

@[simp] theorem bField_packWord : bField (packWord op n a b) = b.field := by
  apply BitVec.eq_of_getLsbD_eq
  intro i hi
  simp only [bField, packWord, BitVec.getLsbD_append, BitVec.getLsbD_extractLsb']
  interval_cases i <;> simp

@[simp] theorem operandA_packWord : operandA (packWord op n a b) = a := by
  simp [operandA, operandOf_mode_field]

@[simp] theorem operandB_packWord : operandB (packWord op n a b) = b := by
  simp [operandB, operandOf_mode_field]

end Sys2Proof
end

