-- ==== Sys2Proof/Laws/Memory.lean ====
section
/-! SUPPORT. Instruction memory: read after write, and that every memory operation keeps the canonical form. -/

namespace Sys2Proof.Machine

/-- A list of cells that begins above `a` reads as unwritten at `a`. -/
theorem readByte_of_wfFrom_lt (m : Memory) (lo a : Nat) (hm : m.wfFrom lo = true) (h : a < lo) :
    m.readByte a = Config.unloadedByte := by
  induction m generalizing lo with
  | nil => rfl
  | cons c m ih =>
    obtain ⟨k, v⟩ := c
    simp only [Memory.wfFrom, Bool.and_eq_true, decide_eq_true_eq] at hm
    have hk : k ≠ a := by omega
    simp only [Memory.readByte, if_neg hk]
    exact ih (k + 1) hm.2 (by omega)

theorem wfFrom_mono (m : Memory) (lo lo' : Nat) (h : lo' ≤ lo) (hm : m.wfFrom lo = true) : m.wfFrom lo' = true := by
  cases m with
  | nil => rfl
  | cons c m =>
    obtain ⟨k, v⟩ := c
    simp only [Memory.wfFrom, Bool.and_eq_true, decide_eq_true_eq] at hm ⊢
    exact ⟨⟨⟨by omega, hm.1.1.2⟩, hm.1.2⟩, hm.2⟩

theorem wfFrom_cons {lo k : Nat} {v : Byte} {m : Memory} :
    Memory.wfFrom lo ((k, v) :: m) = true ↔
      lo ≤ k ∧ k < 3 * Config.imemWords ∧ v ≠ Config.unloadedByte ∧ m.wfFrom (k + 1) = true := by
  simp [Memory.wfFrom, and_assoc]

/-- Writing a byte keeps the canonical form. -/
theorem writeByte_wfFrom (m : Memory) (lo a : Nat) (v : Byte) (hm : m.wfFrom lo = true) (hlo : lo ≤ a)
    (ha : a < 3 * Config.imemWords) : (m.writeByte a v).wfFrom lo = true := by
  induction m generalizing lo with
  | nil =>
    by_cases hv : v = Config.unloadedByte
    · simp [Memory.writeByte, hv, Memory.wfFrom]
    · simpa [Memory.writeByte, hv] using wfFrom_cons.2 ⟨hlo, ha, hv, rfl⟩
  | cons c m ih =>
    obtain ⟨k, u⟩ := c
    obtain ⟨h1, h2, h3, h4⟩ := wfFrom_cons.1 hm
    by_cases hv : v = Config.unloadedByte <;> rcases Nat.lt_trichotomy a k with h | h | h
    · simpa [Memory.writeByte, hv, h] using hm
    · simpa [Memory.writeByte, hv, h] using wfFrom_mono m _ lo (by omega) h4
    · have : ¬ a < k := by omega
      have h' : a ≠ k := by omega
      simpa [Memory.writeByte, this, h'] using wfFrom_cons.2 ⟨h1, h2, h3, ih (k + 1) h4 (by omega)⟩
    · simpa [Memory.writeByte, hv, h] using
        wfFrom_cons.2 ⟨hlo, ha, hv, wfFrom_cons.2 ⟨by omega, h2, h3, h4⟩⟩
    · subst h
      simpa [Memory.writeByte, hv] using wfFrom_cons.2 ⟨h1, h2, hv, h4⟩
    · have : ¬ a < k := by omega
      have h' : a ≠ k := by omega
      simpa [Memory.writeByte, this, h'] using wfFrom_cons.2 ⟨h1, h2, h3, ih (k + 1) h4 (by omega)⟩

/-- Every byte after a write of one, in a canonical memory. -/
theorem readByte_writeByte (m : Memory) (lo a b : Nat) (v : Byte) (hm : m.wfFrom lo = true) :
    (m.writeByte a v).readByte b = if b = a then v else m.readByte b := by
  induction m generalizing lo with
  | nil =>
    by_cases hv : v = Config.unloadedByte <;> by_cases hb : b = a
    · simp [Memory.writeByte, hv, hb, Memory.readByte]
    · simp [Memory.writeByte, hv, hb]
    · simp [Memory.writeByte, hv, hb, Memory.readByte]
    · simp [Memory.writeByte, hv, hb, Ne.symm hb, Memory.readByte]
  | cons c m ih =>
    obtain ⟨k, u⟩ := c
    obtain ⟨h1, h2, h3, h4⟩ := wfFrom_cons.1 hm
    have low : ∀ x, x ≤ k → Memory.readByte m x = Config.unloadedByte := fun x hx =>
      readByte_of_wfFrom_lt m (k + 1) x h4 (by omega)
    rcases Nat.lt_trichotomy a k with h | h | h
    · have hka : k ≠ a := by omega
      by_cases hv : v = Config.unloadedByte <;> by_cases hb : b = a
      · subst hb; simp [Memory.writeByte, h, hv, Memory.readByte, hka, low b (by omega)]
      · simp [Memory.writeByte, h, hv, hb]
      · subst hb; simp [Memory.writeByte, h, hv, Memory.readByte]
      · simp [Memory.writeByte, h, hv, Memory.readByte, hb, Ne.symm hb]
    · subst h
      by_cases hv : v = Config.unloadedByte <;> by_cases hb : b = a
      · subst hb; simp [Memory.writeByte, hv, low b (by omega)]
      · simp [Memory.writeByte, hv, Memory.readByte, hb, Ne.symm hb]
      · subst hb; simp [Memory.writeByte, hv, Memory.readByte]
      · simp [Memory.writeByte, hv, Memory.readByte, hb, Ne.symm hb]
    · have n1 : ¬ a < k := by omega
      have n2 : a ≠ k := by omega
      by_cases hk : k = b
      · subst hk
        simp [Memory.writeByte, n1, n2, Ne.symm n2, Memory.readByte]
      · simp [Memory.writeByte, n1, n2, Memory.readByte, hk, ih (k + 1) h4]

/-- The bytes of a word, put together again. -/
theorem wordOfBytes_bytes (w : InstrWord) :
    wordOfBytes (w.extractLsb' 16 8) (w.extractLsb' 8 8) (w.extractLsb' 0 8) = w := by
  apply BitVec.eq_of_getLsbD_eq
  intro i hi
  simp only [wordOfBytes, BitVec.getLsbD_append, BitVec.getLsbD_extractLsb']
  interval_cases i <;> simp

/-- The host's store of a word keeps the canonical form. -/
theorem writeWord_wf (m : Memory) (i : Nat) (w : InstrWord) (hm : m.wf = true) (hi : i < Config.imemWords) :
    (m.writeWord i w).wf = true :=
  writeByte_wfFrom _ 0 _ _ (writeByte_wfFrom _ 0 _ _ (writeByte_wfFrom _ 0 _ _ hm (by omega) (by omega))
    (by omega) (by omega)) (by omega) (by omega)

/-- Every byte after the host's store of a word. -/
theorem readByte_writeWord (m : Memory) (i b : Nat) (w : InstrWord) (hm : m.wf = true) (hi : i < Config.imemWords) :
    (m.writeWord i w).readByte b =
      if b = 3 * i + 2 then w.extractLsb' 0 8
      else if b = 3 * i + 1 then w.extractLsb' 8 8
      else if b = 3 * i then w.extractLsb' 16 8
      else m.readByte b := by
  have w1 := writeByte_wfFrom m 0 (3 * i) (w.extractLsb' 16 8) hm (by omega) (by omega)
  have w2 := writeByte_wfFrom _ 0 (3 * i + 1) (w.extractLsb' 8 8) w1 (by omega) (by omega)
  rw [Memory.writeWord, readByte_writeByte _ 0 _ _ _ w2, readByte_writeByte _ 0 _ _ _ w1, readByte_writeByte _ 0 _ _ _ hm]

/-- Every word after the host's store of one. -/
theorem readWord_writeWord (m : Memory) (i j : Nat) (w : InstrWord) (hm : m.wf = true) (hi : i < Config.imemWords) :
    (m.writeWord i w).readWord j = if j = i then w else m.readWord j := by
  unfold Memory.readWord
  simp only [readByte_writeWord m i _ w hm hi]
  by_cases h : j = i
  · subst h
    simpa using wordOfBytes_bytes w
  · have e1 : ¬ 3 * j = 3 * i + 2 := by omega
    have e2 : ¬ 3 * j = 3 * i + 1 := by omega
    have e3 : ¬ 3 * j = 3 * i := by omega
    have e4 : ¬ 3 * j + 1 = 3 * i + 2 := by omega
    have e5 : ¬ 3 * j + 1 = 3 * i + 1 := by omega
    have e6 : ¬ 3 * j + 1 = 3 * i := by omega
    have e7 : ¬ 3 * j + 2 = 3 * i + 2 := by omega
    have e8 : ¬ 3 * j + 2 = 3 * i + 1 := by omega
    have e9 : ¬ 3 * j + 2 = 3 * i := by omega
    simp only [h, e1, e2, e3, e4, e5, e6, e7, e8, e9, if_false]

/-- The host's load keeps the canonical form. -/
theorem loadFrom_wf (m : Memory) (i : Nat) (ws : List InstrWord) (hm : m.wf = true)
    (hi : i + ws.length ≤ Config.imemWords) : (m.loadFrom i ws).wf = true := by
  induction ws generalizing m i with
  | nil => exact hm
  | cons w ws ih =>
    simp only [List.length_cons] at hi
    exact ih _ _ (writeWord_wf m i w hm (by omega)) (by omega)

/-- The host's load leaves every word below its first index. -/
theorem readWord_loadFrom_lt (m : Memory) (i j : Nat) (ws : List InstrWord) (hm : m.wf = true)
    (hi : i + ws.length ≤ Config.imemWords) (hj : j < i) : (m.loadFrom i ws).readWord j = m.readWord j := by
  induction ws generalizing m i with
  | nil => rfl
  | cons w ws ih =>
    simp only [List.length_cons] at hi
    have hne : j ≠ i := by omega
    rw [show m.loadFrom i (w :: ws) = (m.writeWord i w).loadFrom (i + 1) ws from rfl,
      ih _ _ (writeWord_wf m i w hm (by omega)) (by omega) (by omega), readWord_writeWord m i j w hm (by omega), if_neg hne]

/-- The memory after Reset is canonical. -/
theorem reset_imem_wf : State.reset.imem.wf = true := rfl

/-- Two canonical memories that read the same are the same list. -/
theorem wfFrom_ext (m m' : Memory) (lo : Nat) (h : m.wfFrom lo = true) (h' : m'.wfFrom lo = true)
    (e : ∀ a, m.readByte a = m'.readByte a) : m = m' := by
  induction m generalizing m' lo with
  | nil =>
    cases m' with
    | nil => rfl
    | cons c m' =>
      obtain ⟨k, v⟩ := c
      have := e k
      simp only [Memory.readByte, if_pos] at this
      exact absurd this.symm (wfFrom_cons.1 h').2.2.1
  | cons c m ih =>
    obtain ⟨k, v⟩ := c
    obtain ⟨a1, a2, a3, a4⟩ := wfFrom_cons.1 h
    cases m' with
    | nil =>
      have := e k
      simp only [Memory.readByte, if_pos] at this
      exact absurd this a3
    | cons c' m' =>
      obtain ⟨k', v'⟩ := c'
      obtain ⟨b1, b2, b3, b4⟩ := wfFrom_cons.1 h'
      have hk : k = k' := by
        rcases Nat.lt_trichotomy k k' with g | g | g
        · have := e k
          rw [readByte_of_wfFrom_lt _ k' k (wfFrom_cons.2 ⟨Nat.le_refl _, b2, b3, b4⟩) g] at this
          simp only [Memory.readByte, if_pos] at this
          exact absurd this a3
        · exact g
        · have := e k'
          rw [readByte_of_wfFrom_lt _ k k' (wfFrom_cons.2 ⟨Nat.le_refl _, a2, a3, a4⟩) g] at this
          simp only [Memory.readByte, if_pos] at this
          exact absurd this.symm b3
      subst hk
      have hv : v = v' := by simpa [Memory.readByte] using e k
      subst hv
      rw [ih m' (k + 1) a4 b4]
      intro a
      by_cases ha : k = a
      · subst ha
        rw [readByte_of_wfFrom_lt m _ _ a4 (Nat.lt_succ_self _), readByte_of_wfFrom_lt m' _ _ b4 (Nat.lt_succ_self _)]
      · simpa [Memory.readByte, ha] using e a

end Sys2Proof.Machine
end

