-- ==== Sys2Proof/Laws/State.lean ====
section
/-! SUPPORT. What each update of the state leaves in each field, so that no later proof unfolds a record update. -/

namespace Sys2Proof.Machine

/-! ## The write of one register -/

@[simp] theorem setReg_r0_r0 (t : State) (v : Byte) : (t.setReg .r0 v).r0 = v := rfl
@[simp] theorem setReg_r1_r1 (t : State) (v : Byte) : (t.setReg .r1 v).r1 = v := rfl
@[simp] theorem setReg_s_s (t : State) (v : Byte) : (t.setReg .s v).s = v := rfl
@[simp] theorem setReg_ovfl_ovfl (t : State) (v : Byte) : (t.setReg .ovfl v).ovfl = v := rfl
@[simp] theorem setReg_udfl_udfl (t : State) (v : Byte) : (t.setReg .udfl v).udfl = v := rfl
@[simp] theorem setReg_pc_pc (t : State) (v : Byte) : (t.setReg .pc v).pc = v := rfl

theorem setReg_pc (t : State) (v : Byte) : t.setReg .pc v = { t with pc := v } := rfl

@[simp] theorem setReg_fcode (t : State) (r : Reg) (v : Byte) : (t.setReg r v).fcode = t.fcode := by cases r <;> rfl
@[simp] theorem setReg_fline (t : State) (r : Reg) (v : Byte) : (t.setReg r v).fline = t.fline := by cases r <;> rfl
@[simp] theorem setReg_finfo (t : State) (r : Reg) (v : Byte) : (t.setReg r v).finfo = t.finfo := by cases r <;> rfl
@[simp] theorem setReg_pend (t : State) (r : Reg) (v : Byte) : (t.setReg r v).pend = t.pend := by cases r <;> rfl
@[simp] theorem setReg_imem (t : State) (r : Reg) (v : Byte) : (t.setReg r v).imem = t.imem := by cases r <;> rfl
@[simp] theorem setReg_hasCgtClt (t : State) (r : Reg) (v : Byte) : (t.setReg r v).hasCgtClt = t.hasCgtClt := by
  cases r <;> rfl

/-- Reading a register after a write of one. -/
@[simp] theorem getReg_setReg (t : State) (r q : Reg) (v : Byte) :
    (t.setReg r v).getReg q = if q = r then v else t.getReg q := by
  cases r <;> cases q <;> rfl

@[simp] theorem getReg_r0 (t : State) : t.getReg .r0 = t.r0 := rfl
@[simp] theorem getReg_r1 (t : State) : t.getReg .r1 = t.r1 := rfl
@[simp] theorem getReg_s (t : State) : t.getReg .s = t.s := rfl
@[simp] theorem getReg_ovfl (t : State) : t.getReg .ovfl = t.ovfl := rfl
@[simp] theorem getReg_udfl (t : State) : t.getReg .udfl = t.udfl := rfl
@[simp] theorem getReg_pc (t : State) : t.getReg .pc = t.pc := rfl

/-! ## Raising a fault -/

@[simp] theorem raise_fcode (t : State) (r : Raise) : (t.raise r).fcode = r.cause.code := rfl
@[simp] theorem raise_fline (t : State) (r : Raise) : (t.raise r).fline = t.pc := rfl
@[simp] theorem raise_finfo (t : State) (r : Raise) : (t.raise r).finfo = r.info := rfl
@[simp] theorem raise_pend (t : State) (r : Raise) : (t.raise r).pend = t.pend := rfl
@[simp] theorem raise_imem (t : State) (r : Raise) : (t.raise r).imem = t.imem := rfl
@[simp] theorem raise_hasCgtClt (t : State) (r : Raise) : (t.raise r).hasCgtClt = t.hasCgtClt := rfl
@[simp] theorem raise_getReg (t : State) (r : Raise) (q : Reg) : (t.raise r).getReg q = t.getReg q := by cases q <;> rfl
@[simp] theorem raise_r0 (t : State) (r : Raise) : (t.raise r).r0 = t.r0 := rfl
@[simp] theorem raise_r1 (t : State) (r : Raise) : (t.raise r).r1 = t.r1 := rfl
@[simp] theorem raise_s (t : State) (r : Raise) : (t.raise r).s = t.s := rfl
@[simp] theorem raise_ovfl (t : State) (r : Raise) : (t.raise r).ovfl = t.ovfl := rfl
@[simp] theorem raise_udfl (t : State) (r : Raise) : (t.raise r).udfl = t.udfl := rfl
@[simp] theorem raise_pc (t : State) (r : Raise) : (t.raise r).pc = t.pc := rfl

/-! ## Reset -/

@[simp] theorem applyReset_getReg (t : State) (q : Reg) : t.applyReset.getReg q = 0 := by cases q <;> rfl
@[simp] theorem applyReset_pc (t : State) : t.applyReset.pc = 0 := rfl
@[simp] theorem applyReset_fcode (t : State) : t.applyReset.fcode = if t.pend = 0 then 1 else 0 := rfl
@[simp] theorem applyReset_fline (t : State) : t.applyReset.fline = 0 := rfl
@[simp] theorem applyReset_finfo (t : State) : t.applyReset.finfo = 0 := rfl
@[simp] theorem applyReset_pend (t : State) : t.applyReset.pend = t.pend := rfl
@[simp] theorem applyReset_imem (t : State) : t.applyReset.imem = t.imem := rfl
@[simp] theorem applyReset_hasCgtClt (t : State) : t.applyReset.hasCgtClt = t.hasCgtClt := rfl

/-! ## The update of `pc` -/

@[simp] theorem updatePc_fcode (t : State) (o : Option Byte) : (t.updatePc o).fcode = t.fcode := by cases o <;> rfl
@[simp] theorem updatePc_fline (t : State) (o : Option Byte) : (t.updatePc o).fline = t.fline := by cases o <;> rfl
@[simp] theorem updatePc_finfo (t : State) (o : Option Byte) : (t.updatePc o).finfo = t.finfo := by cases o <;> rfl
@[simp] theorem updatePc_pend (t : State) (o : Option Byte) : (t.updatePc o).pend = t.pend := by cases o <;> rfl
@[simp] theorem updatePc_imem (t : State) (o : Option Byte) : (t.updatePc o).imem = t.imem := by cases o <;> rfl
@[simp] theorem updatePc_hasCgtClt (t : State) (o : Option Byte) : (t.updatePc o).hasCgtClt = t.hasCgtClt := by
  cases o <;> rfl
@[simp] theorem updatePc_some_pc (t : State) (v : Byte) : (t.updatePc (some v)).pc = v := rfl
@[simp] theorem updatePc_none_pc (t : State) : (t.updatePc none).pc = incPc t.pc := rfl
theorem updatePc_getReg (t : State) (o : Option Byte) (q : Reg) (hq : q ≠ .pc) :
    (t.updatePc o).getReg q = t.getReg q := by
  cases o <;> cases q <;> first | rfl | exact absurd rfl hq

/-! ## The commit of a list of writes -/

@[simp] theorem commit_nil (t : State) : t.commit [] = t := rfl
@[simp] theorem commit_cons (t : State) (r : Reg) (v : Byte) (ws : List (Reg × Byte)) :
    t.commit ((r, v) :: ws) = (t.setReg r v).commit ws := rfl
@[simp] theorem commit_fcode (t : State) (ws : List (Reg × Byte)) : (t.commit ws).fcode = t.fcode := by
  induction ws generalizing t with
  | nil => rfl
  | cons w ws ih => exact (ih _).trans (setReg_fcode _ _ _)
@[simp] theorem commit_fline (t : State) (ws : List (Reg × Byte)) : (t.commit ws).fline = t.fline := by
  induction ws generalizing t with
  | nil => rfl
  | cons w ws ih => exact (ih _).trans (setReg_fline _ _ _)
@[simp] theorem commit_finfo (t : State) (ws : List (Reg × Byte)) : (t.commit ws).finfo = t.finfo := by
  induction ws generalizing t with
  | nil => rfl
  | cons w ws ih => exact (ih _).trans (setReg_finfo _ _ _)
@[simp] theorem commit_pend (t : State) (ws : List (Reg × Byte)) : (t.commit ws).pend = t.pend := by
  induction ws generalizing t with
  | nil => rfl
  | cons w ws ih => exact (ih _).trans (setReg_pend _ _ _)
@[simp] theorem commit_imem (t : State) (ws : List (Reg × Byte)) : (t.commit ws).imem = t.imem := by
  induction ws generalizing t with
  | nil => rfl
  | cons w ws ih => exact (ih _).trans (setReg_imem _ _ _)
@[simp] theorem commit_hasCgtClt (t : State) (ws : List (Reg × Byte)) : (t.commit ws).hasCgtClt = t.hasCgtClt := by
  induction ws generalizing t with
  | nil => rfl
  | cons w ws ih => exact (ih _).trans (setReg_hasCgtClt _ _ _)

/-- A commit leaves a register that none of its writes names. -/
theorem commit_getReg_of_notMem (t : State) (ws : List (Reg × Byte)) (q : Reg) (h : ∀ w ∈ ws, w.1 ≠ q) :
    (t.commit ws).getReg q = t.getReg q := by
  induction ws generalizing t with
  | nil => rfl
  | cons w ws ih =>
    have hq : q ≠ w.1 := fun e => h w (by simp) e.symm
    rw [show t.commit (w :: ws) = (t.setReg w.1 w.2).commit ws from rfl, ih _ fun u hu => h u (by simp [hu])]
    simp [hq]

/-- The last write of a commit is the value its register holds after it. -/
theorem commit_append_getReg (t : State) (ws : List (Reg × Byte)) (r q : Reg) (v : Byte) :
    (t.commit (ws ++ [(r, v)])).getReg q = if q = r then v else (t.commit ws).getReg q := by
  induction ws generalizing t with
  | nil => exact getReg_setReg t r q v
  | cons w ws ih => exact ih (t.setReg w.1 w.2)

/-! ## The placing of a word -/

@[simp] theorem placeWord_fcode (t : State) (w : InstrWord) : (t.placeWord w).fcode = 0 := rfl
@[simp] theorem placeWord_pc (t : State) (w : InstrWord) : (t.placeWord w).pc = if t.pc = 255 then 0 else t.pc := rfl
@[simp] theorem placeWord_imem (t : State) (w : InstrWord) :
    (t.placeWord w).imem = t.imem.writeWord (if t.pc = 255 then (0 : Byte) else t.pc).toNat w := rfl
@[simp] theorem placeWord_hasCgtClt (t : State) (w : InstrWord) : (t.placeWord w).hasCgtClt = t.hasCgtClt := rfl

end Sys2Proof.Machine
end

