-- ==== Sys2Proof/Laws/Ops.lean ====
section
/-! SUPPORT. What each shared operation can do, said once: register numbers, operand resolution, the checks, the ALU, the
end of an instruction. -/

namespace Sys2Proof.Machine

/-! ## Register numbers -/

@[simp] theorem regOfNumber_number (r : Reg) : regOfNumber r.number = some r := by
  cases r <;> rfl

/-- A field of 0 to 5 names exactly the register of that number. -/
theorem regOfNumber_eq_some {f : Byte} {r : Reg} : regOfNumber f = some r ↔ f = r.number := by
  constructor
  · intro h
    unfold regOfNumber at h
    split at h <;> first
      | contradiction
      | (obtain rfl := Option.some.inj h; exact BitVec.eq_of_toNat_eq ‹f.toNat = _›)
  · rintro rfl
    exact regOfNumber_number r

theorem number_le (r : Reg) : r.number.toNat ≤ 5 := by
  cases r <;> decide

/-- A field above 5 names no register. -/
theorem regOfNumber_eq_none {f : Byte} : regOfNumber f = none ↔ 5 < f.toNat := by
  constructor
  · intro h
    by_contra hf
    have hf : f.toNat = 0 ∨ f.toNat = 1 ∨ f.toNat = 2 ∨ f.toNat = 3 ∨ f.toNat = 4 ∨ f.toNat = 5 := by omega
    rcases hf with e | e | e | e | e | e <;> simp [regOfNumber, e] at h
  · intro h
    cases e : regOfNumber f with
    | none => rfl
    | some r =>
      have := number_le r
      rw [regOfNumber_eq_some.1 e] at h
      omega

/-! ## Operands and checks -/

@[simp] theorem resolve_imm (t : State) (f : Byte) : resolve t (.imm f) = .ok f := rfl

@[simp] theorem resolve_number (t : State) (r : Reg) : resolve t (.reg r.number) = .ok (t.getReg r) := by
  simp [resolve]

theorem resolve_bad (t : State) (f : Byte) (h : 5 < f.toNat) :
    resolve t (.reg f) = .error ⟨.unknownRegister, (Operand.reg f).token⟩ := by
  simp [resolve, regOfNumber_eq_none.2 h]

/-- Everything `Resolve` can do. -/
theorem resolve_cases (t : State) (o : Operand) :
    (∃ f, o = .imm f ∧ resolve t o = .ok f) ∨
    (∃ r : Reg, o = .reg r.number ∧ resolve t o = .ok (t.getReg r)) ∨
    (∃ f, o = .reg f ∧ 5 < f.toNat ∧ resolve t o = .error ⟨.unknownRegister, o.token⟩) := by
  cases o with
  | imm f => exact .inl ⟨f, rfl, rfl⟩
  | reg f =>
    cases e : regOfNumber f with
    | none =>
      have h := regOfNumber_eq_none.1 e
      exact .inr (.inr ⟨f, rfl, h, resolve_bad t f h⟩)
    | some r =>
      obtain rfl := regOfNumber_eq_some.1 e
      exact .inr (.inl ⟨r, rfl, resolve_number t r⟩)

@[simp] theorem dstReg_imm (f : Byte) : dstReg (.imm f) = .error ⟨.unknownRegister, (Operand.imm f).token⟩ := rfl

@[simp] theorem dstReg_number (r : Reg) : dstReg (.reg r.number) = .ok r := by
  simp [dstReg]

theorem dstReg_bad (f : Byte) (h : 5 < f.toNat) :
    dstReg (.reg f) = .error ⟨.unknownRegister, (Operand.reg f).token⟩ := by
  simp [dstReg, regOfNumber_eq_none.2 h]

/-- Everything `DstReg` can do. -/
theorem dstReg_cases (o : Operand) :
    (∃ r : Reg, o = .reg r.number ∧ dstReg o = .ok r) ∨
    (∃ f, o = .imm f ∧ dstReg o = .error ⟨.unknownRegister, o.token⟩) ∨
    (∃ f, o = .reg f ∧ 5 < f.toNat ∧ dstReg o = .error ⟨.unknownRegister, o.token⟩) := by
  cases o with
  | imm f => exact .inr (.inl ⟨f, rfl, rfl⟩)
  | reg f =>
    cases e : regOfNumber f with
    | none =>
      have h := regOfNumber_eq_none.1 e
      exact .inr (.inr ⟨f, rfl, h, dstReg_bad f h⟩)
    | some r =>
      obtain rfl := regOfNumber_eq_some.1 e
      exact .inl ⟨r, rfl, dstReg_number r⟩

theorem needText_zero : needText 0 = .error ⟨.missingOperand, 0⟩ := rfl

theorem needText_pos {n : TokenCount} (h : n ≠ 0) : needText n = .ok () := by
  unfold needText
  rw [if_neg h]

theorem needOps_ok {k : Nat} {n : TokenCount} (h : k ≤ n.toNat) : needOps k n = .ok () := by
  have : ¬ n.toNat < k := by omega
  simp [needOps, this]

theorem needOps_error {k : Nat} {n : TokenCount} (h : n.toNat < k) : needOps k n = .error ⟨.arity, n.setWidth 9⟩ := by
  simp [needOps, h]

theorem needOption_true {t : State} (op : BitVec 4) (h : t.hasCgtClt = true) : needOption t op = .ok () := by
  simp [needOption, h]

theorem needOption_false {t : State} (op : BitVec 4) (h : t.hasCgtClt = false) :
    needOption t op = .error ⟨.unknownOpcode, op.setWidth 9⟩ := by
  simp [needOption, h]

theorem jump_ok {t : State} {v : Byte} (h : v.toNat ≤ t.pend.toNat) :
    jump t v = .ok { writes := [], target := some v } := by
  have : ¬ t.pend < v := by rw [BitVec.lt_def]; omega
  simp [jump, this]

theorem jump_error {t : State} {v : Byte} (h : t.pend.toNat < v.toNat) :
    jump t v = .error ⟨.outOfBoundsJump, v.setWidth 9⟩ := by
  have : t.pend < v := BitVec.lt_def.2 h
  simp [jump, this]

/-! ## The ALU and the incrementer -/

theorem incPc_toNat (v : Byte) : (incPc v).toNat = min (v.toNat + 1) 255 := by
  simp only [incPc, BitVec.toNat_ofNat]
  omega

theorem addClamp_toNat (a b : Byte) : (addClamp a b).toNat = min (a.toNat + b.toNat) 255 := by
  unfold addClamp Config.regSize
  dsimp only
  split <;> rw [BitVec.toNat_ofNat] <;> omega

theorem subClamp_toNat (a b : Byte) : (subClamp a b).toNat = b.toNat - a.toNat := by
  unfold subClamp
  dsimp only
  split
  · rw [show (0 : Byte).toNat = 0 from rfl]; omega
  · rw [BitVec.toNat_ofNat]; omega

/-! ## The end of an instruction -/

@[simp] theorem complete_error (t : State) (r : Raise) : complete t (.error r) = .next (t.raise r) := rfl

@[simp] theorem complete_ok (t : State) (e : Effect) :
    complete t (.ok e) = .next ((t.commit e.writes).updatePc e.target) := rfl

/-- Everything the end of an instruction can do. -/
theorem complete_cases (t u : State) (x : Except Raise Effect) (h : complete t x = .next u) :
    (∃ r, x = .error r ∧ u = t.raise r) ∨ (∃ e, x = .ok e ∧ u = (t.commit e.writes).updatePc e.target) := by
  cases x with
  | error r => exact .inl ⟨r, rfl, by simpa using h.symm⟩
  | ok e => exact .inr ⟨e, rfl, by simpa using h.symm⟩

/-! ## Conditions -/

theorem condition_eq (t : State) :
    t.condition = if t.fcode ≠ 0 then .faulted else if t.pend.toNat ≤ t.pc.toNat then .halted else .running := by
  unfold State.condition
  simp only [BitVec.le_def]

theorem condition_running {t : State} : t.condition = .running ↔ t.fcode = 0 ∧ t.pc.toNat < t.pend.toNat := by
  rw [condition_eq]
  split_ifs <;> simp_all

theorem condition_halted {t : State} : t.condition = .halted ↔ t.fcode = 0 ∧ t.pend.toNat ≤ t.pc.toNat := by
  rw [condition_eq]
  split_ifs <;> simp_all

theorem condition_faulted {t : State} : t.condition = .faulted ↔ t.fcode ≠ 0 := by
  rw [condition_eq]
  split_ifs <;> simp_all

end Sys2Proof.Machine
end

