-- ==== Sys2Proof/Laws/PerInstr.lean ====
section
/-! SUPPORT. Laws stated for each constructor of Instr: the word of an instruction carries its opcode and its `N`, and
its opcode is one of the nine of the opcode map (R61, R63). -/

namespace Sys2Proof.Laws.OpcodeOfWord

/-- The encoded word's `OP` and `N` are the instruction's, and `OP` is not reserved. -/
def Statement (i : Instr) : Prop :=
  opField (encode i) = i.opcode ∧ nField (encode i) = i.count ∧ 1 ≤ i.opcode.toNat ∧ i.opcode.toNat ≤ 9

theorem mov (n : TokenCount) (a b : Operand) : Statement (.mov n a b) := by
  refine ⟨?_, ?_, ?_, ?_⟩ <;> simp [encode, Instr.opcode, Instr.count]

theorem add (n : TokenCount) (a b : Operand) : Statement (.add n a b) := by
  refine ⟨?_, ?_, ?_, ?_⟩ <;> simp [encode, Instr.opcode, Instr.count]

theorem sub (n : TokenCount) (a b : Operand) : Statement (.sub n a b) := by
  refine ⟨?_, ?_, ?_, ?_⟩ <;> simp [encode, Instr.opcode, Instr.count]

theorem cmp (n : TokenCount) (a b : Operand) : Statement (.cmp n a b) := by
  refine ⟨?_, ?_, ?_, ?_⟩ <;> simp [encode, Instr.opcode, Instr.count]

theorem cgt (n : TokenCount) (a b : Operand) : Statement (.cgt n a b) := by
  refine ⟨?_, ?_, ?_, ?_⟩ <;> simp [encode, Instr.opcode, Instr.count]

theorem clt (n : TokenCount) (a b : Operand) : Statement (.clt n a b) := by
  refine ⟨?_, ?_, ?_, ?_⟩ <;> simp [encode, Instr.opcode, Instr.count]

theorem jmp (n : TokenCount) (a b : Operand) : Statement (.jmp n a b) := by
  refine ⟨?_, ?_, ?_, ?_⟩ <;> simp [encode, Instr.opcode, Instr.count]

theorem jnz (n : TokenCount) (a b : Operand) : Statement (.jnz n a b) := by
  refine ⟨?_, ?_, ?_, ?_⟩ <;> simp [encode, Instr.opcode, Instr.count]

theorem jze (n : TokenCount) (a b : Operand) : Statement (.jze n a b) := by
  refine ⟨?_, ?_, ?_, ?_⟩ <;> simp [encode, Instr.opcode, Instr.count]

end Sys2Proof.Laws.OpcodeOfWord
end

