-- ==== Sys2Proof/Laws/Step.lean ====
section
/-! SUPPORT. What an instruction and a step can do, said once. -/

namespace Sys2Proof.Machine

/-- Every meaning is the end of an instruction: it raises, or commits an effect and updates `pc`. -/
theorem exec_is_complete (i : Instr) (t : State) : ∃ x, exec i t = complete t x := by
  cases i <;> exact ⟨_, rfl⟩

/-- Every meaning answers a next state. -/
theorem exec_next (i : Instr) (t : State) : ∃ u, exec i t = .next u := by
  obtain ⟨x, h⟩ := exec_is_complete i t
  cases x with
  | error r => exact ⟨_, h⟩
  | ok e => exact ⟨_, h⟩

/-- Everything a meaning can do. -/
theorem exec_cases (i : Instr) (t u : State) (h : exec i t = .next u) :
    (∃ r, u = t.raise r) ∨ (∃ e : Effect, u = (t.commit e.writes).updatePc e.target) := by
  obtain ⟨x, hx⟩ := exec_is_complete i t
  rcases complete_cases t u x (hx ▸ h) with ⟨r, -, hu⟩ | ⟨e, -, hu⟩
  · exact .inl ⟨r, hu⟩
  · exact .inr ⟨e, hu⟩

theorem step_of_running_ok {t : State} {i : Instr} (hr : t.condition = .running) (hd : decode t.fetch = .ok i) :
    step t = exec i t := by
  simp [step, hr, hd]

theorem step_of_running_error {t : State} {r : Reject} (hr : t.condition = .running) (hd : decode t.fetch = .error r) :
    step t = .next (t.raise (rejectRaise r)) := by
  simp [step, hr, hd]

theorem step_of_halted {t : State} (h : t.condition = .halted) : step t = .fault .halted := by
  simp [step, h]

theorem step_of_faulted {t : State} (h : t.condition = .faulted) : step t = .fault .faulted := by
  simp [step, h]

/-- Everything a step that answers a next state can do. -/
theorem step_cases (t u : State) (h : step t = .next u) :
    t.condition = .running ∧
      ((∃ i, decode t.fetch = .ok i ∧ exec i t = .next u) ∨
       (∃ r, decode t.fetch = .error r ∧ u = t.raise (rejectRaise r))) := by
  cases hc : t.condition with
  | halted => rw [step_of_halted hc] at h; cases h
  | faulted => rw [step_of_faulted hc] at h; cases h
  | running =>
    refine ⟨rfl, ?_⟩
    cases hd : decode t.fetch with
    | ok i => exact .inl ⟨i, rfl, step_of_running_ok hc hd ▸ h⟩
    | error r =>
      rw [step_of_running_error hc hd] at h
      exact .inr ⟨r, rfl, by simpa using h.symm⟩

end Sys2Proof.Machine
end

