-- ==== Sys2Proof/Laws/Safety.lean ====
section
/-! SUPPORT. The terms of Safety in terms of the machine's own functions, each said once. -/

namespace Sys2Proof.Machine

theorem running_iff (t : State) : t.Running ↔ t.condition = .running := condition_running.symm

theorem halted_iff (t : State) : t.Halted ↔ t.condition = .halted := condition_halted.symm

theorem faulted_iff (t : State) : t.Faulted ↔ t.condition = .faulted := condition_faulted.symm

theorem sameInputs_of_eq {t u : State} (hp : t.pend = u.pend) (ho : t.hasCgtClt = u.hasCgtClt) (hm : t.imem = u.imem) :
    SameInputs t u :=
  ⟨hp, ho, hm, fun a => by rw [hm]⟩

/-- The value of an operand is what `Resolve` answers. -/
theorem hasValue_iff (t : State) (o : Operand) (v : Byte) : HasValue t o v ↔ resolve t o = .ok v := by
  cases o with
  | imm f => simp [HasValue, eq_comm]
  | reg f =>
    cases e : regOfNumber f with
    | none =>
      have h := regOfNumber_eq_none.1 e
      simp only [HasValue, resolve, e]
      constructor
      · rintro (⟨rfl, -⟩ | ⟨rfl, -⟩ | ⟨rfl, -⟩ | ⟨rfl, -⟩ | ⟨rfl, -⟩ | ⟨rfl, -⟩) <;> simp at h
      · intro h; cases h
    | some r =>
      obtain rfl := regOfNumber_eq_some.1 e
      rw [resolve_number]
      cases r <;> simp [HasValue, Reg.number, eq_comm]

theorem hasValue_number (t : State) (r : Reg) : HasValue t (.reg r.number) (t.getReg r) :=
  (hasValue_iff t _ _).2 (resolve_number t r)

theorem resolve_of_unreadable {t : State} {o : Operand} (h : Unreadable o) :
    resolve t o = .error ⟨.unknownRegister, o.token⟩ := by
  obtain ⟨f, rfl, hf⟩ := h
  exact resolve_bad t f hf

theorem dstReg_of_unwritable {o : Operand} (h : Unwritable o) : dstReg o = .error ⟨.unknownRegister, o.token⟩ := by
  rcases h with ⟨f, rfl, hf⟩ | ⟨f, rfl⟩
  · exact dstReg_bad f hf
  · rfl

/-- An operand either cannot be read or has a value. -/
theorem unreadable_or_hasValue (t : State) (o : Operand) : Unreadable o ∨ ∃ x, HasValue t o x := by
  rcases resolve_cases t o with ⟨f, rfl, _⟩ | ⟨r, rfl, _⟩ | ⟨f, rfl, h, _⟩
  · exact .inr ⟨f, rfl⟩
  · exact .inr ⟨_, hasValue_number t r⟩
  · exact .inl ⟨f, rfl, h⟩

/-- An operand either cannot be written or names a register. -/
theorem unwritable_or_number (o : Operand) : Unwritable o ∨ ∃ d : Reg, o = .reg d.number := by
  rcases dstReg_cases o with ⟨r, rfl, _⟩ | ⟨f, rfl, _⟩ | ⟨f, rfl, h, _⟩
  · exact .inr ⟨r, rfl⟩
  · exact .inl (.inr ⟨f, rfl⟩)
  · exact .inl (.inl ⟨f, rfl, h⟩)

end Sys2Proof.Machine
end

