-- ==== Sys2Proof/Laws/Run.lean ====
section
/-! SUPPORT. What one more step does to a run and to the executor, and what one more line does to the assembler. -/

namespace Sys2Proof.Machine

/-- A step answers a next state or the fault named for the condition. -/
theorem step_total (t : State) :
    (t.condition = .running ∧ ∃ u, step t = .next u) ∨ (t.condition ≠ .running ∧ ∃ f, step t = .fault f) := by
  cases hc : t.condition with
  | halted => exact .inr ⟨by decide, _, step_of_halted hc⟩
  | faulted => exact .inr ⟨by decide, _, step_of_faulted hc⟩
  | running =>
    refine .inl ⟨rfl, ?_⟩
    cases hd : decode t.fetch with
    | ok i =>
      obtain ⟨u, hu⟩ := exec_next i t
      exact ⟨u, (step_of_running_ok hc hd).trans hu⟩
    | error r => exact ⟨_, step_of_running_error hc hd⟩

@[simp] theorem stateAt_zero (t : State) : stateAt 0 t = some t := rfl

theorem stateAt_succ_of_next {t u : State} (h : step t = .next u) (k : Nat) : stateAt (k + 1) t = stateAt k u := by
  simp [stateAt, h]

theorem stateAt_succ_of_stopped {t : State} (h : t.condition ≠ .running) (k : Nat) : stateAt (k + 1) t = none := by
  rcases step_total t with ⟨hr, -⟩ | ⟨-, f, hf⟩
  · exact absurd hr h
  · simp [stateAt, hf]

theorem runFuel_of_stopped {t : State} (h : t.condition ≠ .running) (fuel : Nat) : runFuel fuel t = some t := by
  cases fuel with
  | zero => simp [runFuel, h]
  | succ n =>
    rcases step_total t with ⟨hr, -⟩ | ⟨-, f, hf⟩
    · exact absurd hr h
    · simp [runFuel, hf]

theorem runFuel_zero_of_running {t : State} (h : t.condition = .running) : runFuel 0 t = none := by
  simp [runFuel, h]

theorem runFuel_succ_of_next {t u : State} (h : step t = .next u) (fuel : Nat) : runFuel (fuel + 1) t = runFuel fuel u := by
  simp [runFuel, h]

/-- Everything the assembler can do with one more line. -/
theorem assembleLines_cons (i : Nat) (l : List Char) (ls : List (List Char)) :
    (255 ≤ i ∧ assembleLines i (l :: ls) = .error ⟨i, .tooManyLines⟩) ∨
    (i < 255 ∧ ∃ p, assembleLine l = .error p ∧ assembleLines i (l :: ls) = .error ⟨i, p⟩) ∨
    (i < 255 ∧ ∃ w, assembleLine l = .ok w ∧
      ((∃ r, assembleLines (i + 1) ls = .error r ∧ assembleLines i (l :: ls) = .error r) ∨
       (∃ ws, assembleLines (i + 1) ls = .ok ws ∧ assembleLines i (l :: ls) = .ok (w :: ws)))) := by
  by_cases hi : 255 ≤ i
  · exact .inl ⟨hi, by simp [assembleLines, Config.maxProgram, hi]⟩
  · refine .inr ?_
    cases hl : assembleLine l with
    | error p => exact .inl ⟨by omega, p, rfl, by simp [assembleLines, Config.maxProgram, hi, hl]⟩
    | ok w =>
      refine .inr ⟨by omega, w, rfl, ?_⟩
      cases hr : assembleLines (i + 1) ls with
      | error r => exact .inl ⟨r, rfl, by simp [assembleLines, Config.maxProgram, hi, hl, hr]⟩
      | ok ws => exact .inr ⟨ws, rfl, by simp [assembleLines, Config.maxProgram, hi, hl, hr]⟩

end Sys2Proof.Machine
end

