-- ==== Sys2Proof/Tests/Slice0.lean ====
section
/-! SUPPORT. Checks of the model against spec/95_test_vectors.md and the encodings of 30_encoding.md, and a witness for the
hypotheses of every statement that has some. -/

namespace Sys2Proof.Tests

open Sys2Proof Sys2Proof.Machine

/-! ## Helpers -/

/-- A state `[r0,r1,s,ovfl,udfl,pc]` as the vectors write it, with `PEND` and a program from index 0. -/
def st (r0 r1 s ovfl udfl pc pend : Byte) (words : List InstrWord) : State :=
  { State.reset with
    r0 := r0, r1 := r1, s := s, ovfl := ovfl, udfl := udfl, pc := pc, fcode := 0, pend := pend
    imem := Memory.loadFrom [] 0 words }

/-- The state after one step, if there is one. -/
def after (o : Host.Outcome State Fault Refusal) : Option State :=
  match o with
  | .next t => some t
  | _ => none

/-- The registers of a state as the vectors write them. -/
def regs (t : State) : List Byte := [t.r0, t.r1, t.s, t.ovfl, t.udfl, t.pc]

/-- The fault latch as the vectors write it. -/
def latch (t : State) : BitVec 3 × Byte × BitVec 9 := (t.fcode, t.fline, t.finfo)

/-- One step of a state, as registers. -/
def stepRegs (t : State) : Option (List Byte) := (after (step t)).map regs

/-- One step of a state, as latch. -/
def stepLatch (t : State) : Option (BitVec 3 × Byte × BitVec 9) := (after (step t)).map latch

/-! ## Well-formedness: one ill-formed term for each check (R70) -/

theorem test_wf_accepts : (Instr.mov 2 (.reg 0) (.imm 255)).wf = true := by decide
theorem test_wf_refuses_token_count : (Instr.mov 3 (.reg 0) (.imm 255)).wf = false := by decide
theorem test_wf_refuses_missing_text : (Instr.cmp 0 (.reg 0) (.imm 0)).wf = false := by decide
theorem test_wf_refuses_jump_count : (Instr.jmp 2 (.imm 0) (.reg 0)).wf = false := by decide
theorem test_wf_refuses_immediate_destination : (Instr.mov 2 (.imm 5) (.reg 0)).wf = false := by decide
theorem test_wf_refuses_unknown_destination : (Instr.add 2 (.imm 1) (.reg 6)).wf = false := by decide
theorem test_wf_refuses_unknown_source : (Instr.sub 2 (.reg 6) (.reg 0)).wf = false := by decide
theorem test_wf_refuses_second_jump_operand : (Instr.jnz 1 (.imm 0) (.imm 1)).wf = false := by decide

/-! ## Decoding: words written out from R61 and R63, one for each constructor -/

theorem test_decode_mov : decode 0b0001_10_0_1_00000000_11111111 = .ok (.mov 2 (.reg 0) (.imm 255)) := by decide
theorem test_decode_add : decode 0b0010_10_0_0_00000000_00000001 = .ok (.add 2 (.reg 0) (.reg 1)) := by decide
theorem test_decode_sub : decode 0b0011_10_1_0_00110010_00000001 = .ok (.sub 2 (.imm 50) (.reg 1)) := by decide
theorem test_decode_cmp : decode 0b0100_10_0_1_00000011_00000001 = .ok (.cmp 2 (.reg 3) (.imm 1)) := by decide
theorem test_decode_cgt : decode 0b0101_10_0_0_00000001_00000000 = .ok (.cgt 2 (.reg 1) (.reg 0)) := by decide
theorem test_decode_clt : decode 0b0110_10_1_1_00000000_11111111 = .ok (.clt 2 (.imm 0) (.imm 255)) := by decide
theorem test_decode_jmp : decode 0b0111_01_1_0_00000010_00000000 = .ok (.jmp 1 (.imm 2) (.reg 0)) := by decide
theorem test_decode_jnz : decode 0b1000_01_0_0_00000001_00000000 = .ok (.jnz 1 (.reg 1) (.reg 0)) := by decide
theorem test_decode_jze : decode 0b1001_01_1_0_00000101_00000000 = .ok (.jze 1 (.imm 5) (.reg 0)) := by decide
theorem test_decode_reserved : decode 0xAC0000 = .error (.reservedOpcode 0xA) ∧ decode 0x000000 = .error .missingOperand := by
  decide
theorem test_decode_table_word : decodeTableWord 24 0x760200 = some (.jmp 1 (.imm 2) (.reg 0)) := by decide
theorem test_decode_bytes : decodeBytes [0x19, 0x00, 0xFF, 0x19] = .ok (.mov 2 (.reg 0) (.imm 255), [0x19]) ∧
    decodeBytes [0x19, 0x00] = .error .truncated := by decide

/-! ## One step: vectors of 95_test_vectors.md, section 2 -/

/-- V-MOV-9. -/
theorem test_mov_pc_saturates : stepRegs (st 0 0 0 0 0 0 10 [0x1905FF]) = some [0, 0, 0, 0, 0, 255] := by decide
/-- V-MOV-16: both fields bad, operand B is reported. -/
theorem test_mov_value_first : stepLatch (st 0 0 0 0 0 0 4 [0x180706]) = some (5, 0, 0x006) := by decide
/-- V-ADD-12: destination `ovfl` on overflow. -/
theorem test_add_to_ovfl : stepRegs (st 0 0 0 1 0 0 4 [0x2AFF03]) = some [0, 0, 0, 255, 0, 1] := by decide
/-- V-ADD-19: a faulting `add` leaves `ovfl`. -/
theorem test_add_immediate_destination :
    stepRegs (st 1 0 0 0 0 0 4 [0x2900FF]) = some [1, 0, 0, 0, 0, 0] ∧
      stepLatch (st 1 0 0 0 0 0 4 [0x2900FF]) = some (5, 0, 0x1FF) := by decide
/-- V-SUB-7: destination minus source, clamped. -/
theorem test_sub_direction : stepRegs (st 10 3 0 0 0 0 4 [0x380001]) = some [10, 0, 0, 0, 1, 1] := by decide
/-- V-SUB-8: destination `udfl` on underflow. -/
theorem test_sub_to_udfl : stepRegs (st 0 0 0 0 1 0 4 [0x3A0504]) = some [0, 0, 0, 0, 0, 1] := by decide
/-- V-CMP-11: reads the old `s`. -/
theorem test_cmp_reads_old_s : stepRegs (st 0 0 0 0 0 0 4 [0x490200]) = some [0, 0, 1, 0, 0, 1] := by decide
/-- V-CMP-8: a fault leaves `s`. -/
theorem test_cmp_fault_keeps_s : stepRegs (st 0 0 1 0 0 0 4 [0x4800FF]) = some [0, 0, 1, 0, 0, 0] := by decide
/-- V-CGT-4: unsigned. -/
theorem test_cgt_unsigned : stepRegs (st 0 0 0 0 0 0 4 [0x5BFF00]) = some [0, 0, 1, 0, 0, 1] := by decide
/-- V-CGT-6: without the option UnknownOpcode comes before Arity. -/
theorem test_cgt_absent :
    stepLatch { st 0 0 0 0 0 0 4 [0x54FF00] with hasCgtClt := false } = some (2, 0, 0x005) := by decide
/-- V-CLT-2: equal gives 0. -/
theorem test_clt_equal : stepRegs (st 5 5 1 0 0 0 4 [0x680001]) = some [5, 5, 0, 0, 0, 1] := by decide
/-- V-CLT-6: without the option MissingOperand still comes first. -/
theorem test_clt_missing_operand :
    stepLatch { st 0 0 0 0 0 0 4 [0x600000] with hasCgtClt := false } = some (3, 0, 0) := by decide
/-- V-JMP-9: operand B is ignored. -/
theorem test_jmp_ignores_b : stepRegs (st 0 0 0 0 0 0 4 [0x7A02FF]) = some [0, 0, 0, 0, 0, 2] := by decide
/-- V-JMP-6: a register target above `PEND`. -/
theorem test_jmp_out_of_bounds : stepLatch (st 200 0 0 0 0 0 4 [0x740000]) = some (6, 0, 0x0C8) := by decide
/-- V-JNZ-9: any non-zero `s` is taken, the target read from `s`. -/
theorem test_jnz_target_s : stepRegs (st 0 0 3 0 0 0 4 [0x840200]) = some [0, 0, 3, 0, 0, 3] := by decide
/-- V-JNZ-6: not taken, a bad operand does not fault. -/
theorem test_jnz_not_taken : stepRegs (st 0 0 0 0 0 0 4 [0x84FF00]) = some [0, 0, 0, 0, 0, 1] := by decide
/-- V-JZE-8: taken to `PEND`. -/
theorem test_jze_to_pend : stepRegs (st 0 0 0 0 0 0 4 [0x960400]) = some [0, 0, 0, 0, 0, 4] := by decide
/-- V-JZE-7: taken with a bad register. -/
theorem test_jze_bad_register : stepLatch (st 0 0 0 0 0 0 4 [0x94FF00]) = some (5, 0, 0x0FF) := by decide
/-- V-DEC-8 and V-DEC-2: MissingOperand wins over UnknownOpcode. -/
theorem test_reserved_words :
    stepLatch (st 0 0 0 0 0 0 1 [0xF00000]) = some (3, 0, 0) ∧ stepLatch (st 0 0 0 0 0 0 1 [0xFFFFFF]) = some (2, 0, 0x00F) := by
  decide
/-- The second word of a program is the one at index 1 (V-JMP-7: `jmp pc`). -/
theorem test_fetch_at_pc : stepRegs (st 0 0 0 0 0 1 4 [0x000000, 0x740500]) = some [0, 0, 0, 0, 0, 1] := by decide
/-- The first instruction after reset, placed: V-MOV-2. -/
theorem test_placed_word : stepRegs (State.reset.withFetchWord 24 0x1900FF) = some [255, 0, 0, 0, 0, 1] := by decide

/-! ## Assembly: scenarios S1, S2, S4 and the lines of R71 and R81 -/

/-- S1, with blank lines and white space at the ends of lines (R76). -/
theorem test_assemble_s1 :
    assemble "mov r0,#255\n\n  mov r1,#10 \nadd r0,r1\r\nsub #50,r1".toList =
      .ok [0x1900FF, 0x19010A, 0x280001, 0x3A3201] := by decide
/-- S2: an empty text assembles to no words, and Reset latches EmptyProgram. -/
theorem test_assemble_s2 : assemble [] = .ok [] ∧ (bootText [] true).map latch = some (1, 0, 0) := by decide
/-- S4, and a line without operand text, and an unknown name with a surplus token. -/
theorem test_assemble_malformed :
    assemble "xyz #1,r0\njmp\nmov r9,#1,#2".toList = .ok [0xFA0100, 0x700000, 0x1DFF01] := by decide
/-- R81: refusals by line. -/
theorem test_assemble_refuses :
    assemble "mov r0,#256".toList = .error ⟨0, .immediateTooLarge⟩ ∧
      assemble "mov r0,#1\nmov r0,#-1".toList = .error ⟨1, .malformedImmediate⟩ ∧
      assemble "mov r0, r1".toList = .error ⟨0, .whiteSpaceInOperands⟩ ∧
      assemble "mov\tr0,r1".toList = .error ⟨0, .badSeparator⟩ := by decide
/-- D27 and U9: white space other than a space or a tab inside a line (carriage return, form feed). R81: a 256th line. -/
theorem test_assemble_refuses_more :
    assembleLine ("mov r0,\r#1".toList) = .error .whiteSpaceInOperands ∧
      assembleLine ['m', 'o', 'v', Char.ofNat 12, 'r', '0'] = .error .badSeparator ∧
      assembleLines 254 ["jmp".toList, "jmp #".toList] = .error ⟨255, .tooManyLines⟩ := by decide
/-- R83: printing, with a register number that has no name and a word that is printed raw. -/
theorem test_disassemble :
    disassemble 0x2A0A05 = "add #10,pc".toList ∧ disassemble 0x760200 = "jmp #2".toList ∧
      disassemble 0x180009 = "mov r0,%9".toList ∧ disassemble 0xFA0100 = ".word 0xFA0100".toList := by decide

/-- S3, run from text to snapshot: one step, `r0` = 1, halted with `pc` = `PEND`; without fuel there is no answer. -/
theorem test_run_s3 :
    ((runText "add #1,r0".toList true 1).toOption.join.map fun p => [p.r0, p.r1, p.s, p.ovfl, p.udfl, p.pc]) = some [1, 0, 0, 0, 0, 1] ∧
      runText "add #1,r0".toList true 0 = .ok none := by decide

/-! ## Witnesses: for every statement with hypotheses, states and operands that meet them, clause by clause -/

/-- EncodeOfDecodeIsIdentity. -/
theorem witness_encodeOfDecode : decode 0xFFFFFF ≠ .error .missingOperand ∧ decode 0x280001 = .ok (.add 2 (.reg 0) (.reg 1)) := by
  decide
/-- FieldsLieAsInF24: both values of both mode bits. -/
theorem witness_fields : (0 : BitVec 1) = 0 ∧ (1 : BitVec 1) = 1 := by decide
/-- OpcodeAloneSelectsTheInstruction, and the encoding clause of each instruction: a word for each opcode, the reserved
ones at both ends. -/
theorem witness_opcodes :
    opField 0x1900FF = 0x1 ∧ opField 0x280001 = 0x2 ∧ opField 0x3A3201 = 0x3 ∧ opField 0x490000 = 0x4 ∧
      opField 0x580001 = 0x5 ∧ opField 0x680001 = 0x6 ∧ opField 0x760200 = 0x7 ∧ opField 0x860200 = 0x8 ∧
      opField 0x960200 = 0x9 ∧ opField 0x0C0000 = 0x0 ∧ 0xA ≤ (opField 0xA00000).toNat ∧ 0xA ≤ (opField 0xFFFFFF).toNat := by
  decide
/-- The operand text of those words. -/
theorem witness_operand_text :
    [nField 0x1900FF, nField 0x280001, nField 0x3A3201, nField 0x490000, nField 0x580001, nField 0x680001, nField 0x760200,
      nField 0x860200, nField 0x960200] = [2, 2, 2, 2, 2, 2, 1, 1, 1] := by decide
/-- The canonical-form clause of each instruction, and the hypotheses of the two assembly statements. -/
theorem witness_canonical :
    ∀ i ∈ [Instr.mov 2 (.reg 5) (.imm 255), .add 2 (.imm 0) (.reg 5), .sub 2 (.reg 0) (.reg 0), .cmp 2 (.imm 0) (.imm 0),
      .cgt 2 (.reg 5) (.imm 1), .clt 2 (.imm 1) (.reg 5), .jmp 1 (.imm 255) (.reg 0), .jnz 1 (.reg 2) (.reg 0),
      .jze 1 (.reg 0) (.reg 0)], i.wf = true := by decide

/-- A running state with `add r0,r1` at `pc`, and a word it never sees above `PEND`. -/
def runningState : State := st 255 10 0 0 0 0 1 [0x280001, 0x7600FF]

theorem witness_running : runningState.Running := ⟨rfl, by decide⟩
/-- StepRunsTheDecodedInstruction, PcAdvancesByOne, FlagsAreStickyAndOwned, OutOfBoundsJumpIsForTakenJumps,
FaultsFollowThePriorityList, StepKeepsTheInputs. -/
theorem witness_step : runningState.Running ∧ decode (runningState.imem.readWord runningState.pc.toNat) = .ok (.add 2 (.reg 0) (.reg 1)) ∧
    ∃ t, step runningState = .next t ∧ t.fcode = 0 ∧ destinationOf (.add 2 (.reg 0) (.reg 1)) = some .r1 :=
  ⟨witness_running, by decide, _, rfl, by decide, by decide⟩
/-- StoppedStatesAnswerByName: halted with `pc` at `PEND`, faulted after Reset with no program. -/
theorem witness_stopped : (st 0 0 0 0 0 1 1 []).Halted ∧ State.reset.Faulted := ⟨⟨rfl, by decide⟩, by unfold State.Faulted; decide⟩
/-- WordsAbovePendAreNeverSeen: another memory that agrees below `PEND`. -/
theorem witness_above_pend :
    (∀ i, i < runningState.pend.toNat → Memory.readWord (Memory.loadFrom [] 0 [0x280001, 0x123456]) i = runningState.imem.readWord i) ∧
      ∃ t, step runningState = .next t :=
  ⟨fun i h => by
    have h0 : i = 0 := by
      have : runningState.pend.toNat = 1 := rfl
      omega
    subst h0
    decide, _, rfl⟩
/-- ResolveGivesTheOperandValue and DstRegGivesTheDestination: the fields 0, 5, 6 and 255. -/
theorem witness_resolve :
    HasValue runningState (.reg 0) 255 ∧ HasValue runningState (.reg 5) 0 ∧ 5 < (6 : Byte).toNat ∧ 5 < (255 : Byte).toNat ∧
      (5 : Byte).toNat ≤ 5 := by
  refine ⟨?_, ?_, ?_, ?_, ?_⟩ <;> first | (unfold HasValue; decide) | decide

theorem unreadable_six : Unreadable (.reg 6) := ⟨6, rfl, by decide⟩
theorem unreadable_last : Unreadable (.reg 255) := ⟨255, rfl, by decide⟩
theorem unwritable_immediate : Unwritable (.imm 0) := .inr ⟨0, rfl⟩

/-- MovCopiesAValue, AddClampsAtTheTop, SubClampsAtZero, CmpTestsEquality, CgtTestsGreater, CltTestsLess: each hypothesis of
their clauses at its boundary; the option both ways; SurplusTokensChangeNothing and CltMirrorsCgt. -/
theorem witness_two_operands :
    2 ≤ (2 : TokenCount).toNat ∧ 2 ≤ (3 : TokenCount).toNat ∧ (1 : TokenCount) ≠ 0 ∧ Unreadable (.reg 6) ∧ Unreadable (.reg 255) ∧
      Unwritable (.imm 0) ∧ Unwritable (.reg 6) ∧ HasValue runningState (.reg 0) 255 ∧ HasValue runningState (.imm 0) 0 ∧
      runningState.hasCgtClt = true ∧ ({ runningState with hasCgtClt := false } : State).hasCgtClt = false :=
  ⟨by decide, by decide, by decide, unreadable_six, unreadable_last, unwritable_immediate, .inl unreadable_six,
    by unfold HasValue; decide, rfl, rfl, rfl⟩
/-- ClampSetsTheFlagOrLosesToTheDestination: a sum of exactly 256 and a difference of -1. -/
theorem witness_clamp :
    HasValue runningState (.imm 246) 246 ∧ 256 ≤ (246 : Byte).toNat + (runningState.getReg .r1).toNat ∧
      HasValue runningState (.imm 11) 11 ∧ (runningState.getReg .r1).toNat < (11 : Byte).toNat :=
  ⟨rfl, by decide, rfl, by decide⟩
/-- JmpGoesToTheTarget, JumpToPendHalts, JnzAndJzeAreComplementary: targets at `PEND` and one above it. -/
theorem witness_jump :
    (1 : TokenCount) ≠ 0 ∧ Unreadable (.reg 6) ∧ HasValue runningState (.imm 1) 1 ∧ (1 : Byte).toNat ≤ runningState.pend.toNat ∧
      HasValue runningState (.imm 2) 2 ∧ runningState.pend.toNat < (2 : Byte).toNat ∧ runningState.Running :=
  ⟨by decide, unreadable_six, rfl, by decide, rfl, by decide, witness_running⟩
/-- JnzJumpsWhenNotZero, JzeJumpsWhenZero, NotTakenJumpIgnoresItsOperand: `s` zero and not zero, with the targets of
witness_jump. -/
theorem witness_conditional_jump :
    runningState.s = 0 ∧ (st 0 0 255 0 0 0 1 []).s ≠ 0 ∧ HasValue (st 0 0 255 0 0 0 1 []) (.imm 1) 1 ∧
      (1 : Byte).toNat ≤ (st 0 0 255 0 0 0 1 []).pend.toNat ∧ (st 0 0 255 0 0 0 1 []).pend.toNat < (2 : Byte).toNat ∧
      HasValue (st 0 0 255 0 0 0 1 []) (.imm 2) 2 :=
  ⟨by decide, by decide, rfl, by decide, by decide, rfl⟩
/-- ReadingPcGivesTheOwnIndex. -/
theorem witness_own_index :
    2 ≤ (2 : TokenCount).toNat ∧ Reg.r0 ≠ .pc ∧ (st 0 0 0 0 0 200 255 []).pc.toNat + ((st 55 0 0 0 0 200 255 []).getReg .r0).toNat < 256 ∧
      (1 : TokenCount) ≠ 0 ∧ (st 0 0 0 0 0 200 255 []).Running :=
  ⟨by decide, by decide, by decide, by decide, rfl, by decide⟩
/-- WritingPcIsNotAJump: each of the three instructions, and a value whose successor reaches `PEND`. -/
theorem witness_writing_pc :
    2 ≤ (2 : TokenCount).toNat ∧ HasValue runningState (.imm 255) 255 ∧ runningState.fcode = 0 ∧
      (Instr.mov 2 (.reg 5) (.imm 255) = .mov 2 (.reg 5) (.imm 255) ∧ (255 : Nat) = (255 : Byte).toNat) ∧
      (255 : Nat) = min (runningState.pc.toNat + (255 : Byte).toNat) 255 ∧ (0 : Nat) = runningState.pc.toNat - (255 : Byte).toNat ∧
      runningState.pend.toNat ≤ min (255 + 1) 255 ∧ runningState.pend.toNat ≤ min (0 + 1) 255 :=
  ⟨by decide, rfl, by decide, ⟨rfl, by decide⟩, by decide, by decide, by decide, by decide⟩
/-- PcAdvancesByOne: a step that faults, and jumps that are not taken; FlagsAreStickyAndOwned is witnessed by witness_step. -/
theorem witness_pc_cases :
    (∃ t, step (st 0 0 0 0 0 0 4 [0x180706]) = .next t ∧ t.fcode ≠ 0) ∧ (Instr.jnz 1 (.imm 9) (.reg 0)).opcode = 0x8 ∧
      (Instr.jze 1 (.imm 9) (.reg 0)).opcode = 0x9 ∧ (Instr.cmp 2 (.imm 9) (.reg 0)).opcode.toNat ≤ 6 ∧
      destinationOf (.cmp 2 (.imm 9) (.reg 0)) ≠ some .pc :=
  ⟨⟨_, rfl, by decide⟩, by decide, by decide, by decide, by decide⟩
/-- FlagsStayBoolean: flags at 0 and at 1 before the step. -/
theorem witness_flags_boolean :
    (st 255 10 1 1 1 0 1 [0x280001]).Running ∧ decode (st 255 10 1 1 1 0 1 [0x280001]).fetch = .ok (.add 2 (.reg 0) (.reg 1)) ∧
      (∃ t, step (st 255 10 1 1 1 0 1 [0x280001]) = .next t) ∧ destinationOf (.add 2 (.reg 0) (.reg 1)) = some .r1 ∧
      (1 : Byte).toNat ≤ 1 :=
  ⟨⟨rfl, by decide⟩, by decide, ⟨_, rfl⟩, by decide, by decide⟩
/-- UnusedFieldsAreIgnored: two words for each of its six cases. -/
theorem witness_unused_fields :
    (nField 0x1000FF = 0 ∧ nField 0x130000 = 0) ∧ (absentOpcode runningState (opField 0xAC0000) = true ∧ opField 0xAC1234 = opField 0xAC0000) ∧
      ((opField 0x140000).toNat ≤ 6 ∧ nField 0x140000 = 1 ∧ nField 0x14FFFF = 1) ∧ (opField 0x84FF00 = 0x8 ∧ runningState.s = 0) ∧
      (opField 0x94FF00 = 0x9 ∧ (st 0 0 255 0 0 0 1 []).s ≠ 0) ∧
      (7 ≤ (opField 0x7A02FF).toNat ∧ maField 0x7A0200 = maField 0x7A02FF ∧ aField 0x7A0200 = aField 0x7A02FF) ∧
      ∃ t, step (st 0 0 0 0 0 0 4 [0x7A02FF]) = .next t := by
  refine ⟨?_, ?_, ?_, ?_, ?_, ?_, ⟨_, rfl⟩⟩ <;> decide
/-- The three frames: an instruction of each shape that answers a next state. -/
theorem witness_frames :
    (∃ t, exec (.sub 2 (.imm 1) (.reg 0)) runningState = .next t) ∧ (Instr.sub 2 (.imm 1) (.reg 0)).opcode.toNat ≤ 3 ∧
      (∃ t, exec (.clt 2 (.imm 1) (.reg 0)) runningState = .next t) ∧ (Instr.clt 2 (.imm 1) (.reg 0)).opcode.toNat ≤ 6 ∧
      4 ≤ (Instr.cmp 2 (.imm 1) (.reg 0)).opcode.toNat ∧
      (∃ t, exec (.jmp 1 (.imm 1) (.reg 0)) runningState = .next t) ∧ 7 ≤ (Instr.jmp 1 (.imm 1) (.reg 0)).opcode.toNat :=
  ⟨⟨_, rfl⟩, by decide, ⟨_, rfl⟩, by decide, by decide, ⟨_, rfl⟩, by decide⟩
/-- MissingOperandComesFirst and UnknownOpcodeComesSecond: reserved opcodes at both ends, and `cgt` without the option. -/
theorem witness_decoder_faults :
    (st 0 0 0 0 0 0 1 [0xF00000]).Running ∧ nField (st 0 0 0 0 0 0 1 [0xF00000]).fetch = 0 ∧ (st 0 0 0 0 0 0 1 [0x0C0000]).Running ∧
      nField (st 0 0 0 0 0 0 1 [0x0C0000]).fetch ≠ 0 ∧ (opField (st 0 0 0 0 0 0 1 [0x0C0000]).fetch).toNat = 0 ∧
      (opField (st 0 0 0 0 0 0 1 [0xFFFFFF]).fetch).toNat = 0xF ∧ (opField (st 0 0 0 0 0 0 1 [0x580001]).fetch).toNat = 5 ∧
      ({ st 0 0 0 0 0 0 1 [0x580001] with hasCgtClt := false } : State).hasCgtClt = false :=
  ⟨⟨rfl, by decide⟩, by decide, ⟨rfl, by decide⟩, by decide, by decide, by decide, by decide, rfl⟩
/-- ArityNeedsTwoTokens: one token, on `cmp` and on `clt` with the option; a jump that answers a next state. -/
theorem witness_arity :
    (Instr.cmp 1 (.reg 255) (.reg 0)).count = 1 ∧ (Instr.cmp 1 (.reg 255) (.reg 0)).opcode.toNat ≤ 4 ∧
      (Instr.clt 1 (.reg 0) (.reg 0)).opcode.toNat ≤ 6 ∧ runningState.hasCgtClt = true ∧ runningState.fcode ≠ 4 ∧
      (∃ t, exec (.jmp 1 (.imm 2) (.reg 0)) runningState = .next t) ∧ 7 ≤ (Instr.jmp 1 (.imm 2) (.reg 0)).opcode.toNat :=
  ⟨by decide, by decide, by decide, by decide, by decide, ⟨_, rfl⟩, by decide⟩
/-- OutOfBoundsJumpIsForTakenJumps: both sides of the equivalence hold of a jump to one above `PEND`. -/
theorem witness_out_of_bounds :
    (st 0 0 0 0 0 0 4 [0x760500]).Running ∧ decode (st 0 0 0 0 0 0 4 [0x760500]).fetch = .ok (.jmp 1 (.imm 5) (.reg 0)) ∧
      ∃ t, step (st 0 0 0 0 0 0 4 [0x760500]) = .next t ∧ t.fcode = 6 :=
  ⟨⟨rfl, by decide⟩, by decide, _, rfl, by decide⟩
/-- RaisingStepOnlyLoadsTheLatch. -/
theorem witness_raise : ∃ t, step (st 0 0 0 0 0 0 4 [0x180706]) = .next t ∧ t.fcode ≠ 0 := ⟨_, rfl, by decide⟩
/-- ResetClearsEverything, EmptyProgramFaultsAtReset, ResetMeetsTheInvariant. -/
theorem witness_reset :
    State.reset.pend = 0 ∧ runningState.pend ≠ 0 ∧ runningState.imem.wf = true ∧ SameInputs State.reset State.reset :=
  ⟨rfl, by decide, by decide, rfl, rfl, rfl, fun _ => rfl⟩
/-- EveryStepKeepsTheInvariant: a running state that meets it. -/
theorem witness_invariant : runningState.Inv ∧ ∃ t, step runningState = .next t := by
  refine ⟨⟨by decide, fun _ => by decide, fun h => absurd rfl h, fun h => absurd rfl h, fun h => absurd h (by decide),
    ⟨fun h => absurd h (by decide), fun h => absurd h (by decide)⟩, ⟨?_, ?_, ?_, ?_, ?_⟩, by decide⟩, _, rfl⟩ <;>
    exact fun h => absurd h (by decide)
/-- LoadedProgramReadsBack: no words and one word. -/
theorem witness_load : ([] : List InstrWord).length ≤ 255 ∧ [(0x280001 : InstrWord)].length ≤ 255 ∧ [(0x280001 : InstrWord)] ≠ [] := by
  decide
/-- PlacedWordRunsNext. -/
theorem witness_placed : State.reset.imem.wf = true ∧ runningState.imem.wf = true := by decide
/-- PrintedProgramsAssembleBack. -/
theorem witness_printed : [Instr.jmp 1 (.imm 2) (.reg 0)].length ≤ 255 ∧ ∀ i ∈ [Instr.jmp 1 (.imm 2) (.reg 0)], i.wf = true := by
  decide

/-- AssemblyGivesWordsOrNamesALine: a text that assembles and one that is refused (and test_assemble_refuses_more). -/
theorem witness_assembly :
    (programLines "jmp".toList)[0]? = some "jmp".toList ∧ assemble "jmp".toList = .ok [0x700000] ∧
      (programLines "jmp\njmp #".toList)[0]? = some "jmp".toList ∧
      assemble "jmp\njmp #".toList = .error ⟨1, .malformedImmediate⟩ := by decide
/-- ARunIsTheSequenceOfSteps: a load, and a run that ends after one step. -/
theorem witness_run : (∃ t, loadProgram [0x280001] true = some t) ∧ ∃ t, RunEndsIn runningState t :=
  ⟨⟨_, rfl⟩, _, 1, rfl, by decide⟩
/-- ExecutorFindsTheResult: `jmp #0` at index 0 runs forever. -/
theorem witness_runs_forever : RunsForever (st 0 0 0 0 0 0 1 [0x760000]) := by
  have hs : step (st 0 0 0 0 0 0 1 [0x760000]) = .next (st 0 0 0 0 0 0 1 [0x760000]) := rfl
  intro k
  refine ⟨st 0 0 0 0 0 0 1 [0x760000], ?_, by decide⟩
  induction k with
  | zero => rfl
  | succ k ih => rw [stateAt, hs]; exact ih

end Sys2Proof.Tests
end

section
/-! PROOFS. The scope statements: the three conditions of a state and the existence of a step (R7). -/

namespace Sys2Proof.Machine

theorem running_or_halted_or_faulted (t : State) : t.Running ∨ t.Halted ∨ t.Faulted := by
  rw [running_iff, halted_iff, faulted_iff]
  cases t.condition with
  | running => exact .inl rfl
  | halted => exact .inr (.inl rfl)
  | faulted => exact .inr (.inr rfl)

theorem not_running_and_halted (t : State) : ¬(t.Running ∧ t.Halted) := by
  rintro ⟨⟨-, hlt⟩, -, hle⟩
  exact absurd hle hlt.not_ge

theorem not_running_and_faulted (t : State) : ¬(t.Running ∧ t.Faulted) := by
  rintro ⟨⟨hcode, -⟩, hfault⟩
  exact hfault hcode

theorem not_halted_and_faulted (t : State) : ¬(t.Halted ∧ t.Faulted) := by
  rintro ⟨⟨hcode, -⟩, hfault⟩
  exact hfault hcode

/-- A step that answers a next state was taken in a running state (`step_cases`), and a running state is not in the
stopped half of `step_total`. -/
theorem exists_step_next_iff_running (t : State) : (∃ u, step t = .next u) ↔ t.Running := by
  rw [running_iff]
  constructor
  · rintro ⟨u, hu⟩
    exact (step_cases t u hu).1
  · intro hr
    rcases step_total t with ⟨-, hnext⟩ | ⟨hstopped, -⟩
    · exact hnext
    · exact absurd hr hstopped

/-- Settles O8: the cases of `condition` cover every state, `FCODE` and the order of `pc` and `PEND` tell them apart, and
a step exists exactly in the running one. -/
theorem onlyRunningStatesHaveAStep : Obligations.OnlyRunningStatesHaveAStep := by
  unfold Obligations.OnlyRunningStatesHaveAStep
  exact fun s => ⟨running_or_halted_or_faulted s, not_running_and_halted s, not_running_and_faulted s,
    not_halted_and_faulted s, exists_step_next_iff_running s⟩

end Sys2Proof.Machine
end

section
/-! PROOFS. The state statements: reading `pc` gives the index of the instruction that reads it (R24). What a meaning is
once its operands are read is said here once, for each of the instructions named in R24's statement. -/

namespace Sys2Proof.Machine

/-! ## A meaning whose tokens are there and whose operands have values -/

theorem needText_of_two_le {n : TokenCount} (hn : 2 ≤ n.toNat) : needText n = .ok () := by
  refine needText_pos ?_
  rintro rfl
  exact absurd hn (by decide)

theorem exec_mov_ok {s : State} {n : TokenCount} {o : Operand} {v : Byte} (d : Reg) (hn : 2 ≤ n.toNat)
    (ho : resolve s o = .ok v) :
    exec (.mov n (.reg d.number) o) s = .next ((s.commit [(d, v)]).updatePc none) := by
  simp only [exec, execMov, needText_of_two_le hn, needOps_ok hn, ho, dstReg_number]
  rfl

theorem exec_add_ok {s : State} {n : TokenCount} {o : Operand} {x : Byte} (d : Reg) (hn : 2 ≤ n.toNat)
    (ho : resolve s o = .ok x) :
    exec (.add n o (.reg d.number)) s =
      .next ((s.commit (addFlagWrites x (s.getReg d) ++ [(d, addClamp x (s.getReg d))])).updatePc none) := by
  simp only [exec, execAdd, needText_of_two_le hn, needOps_ok hn, ho, resolve_number, dstReg_number]
  rfl

theorem exec_cmp_ok {s : State} {n : TokenCount} {a b : Operand} {x y : Byte} (hn : 2 ≤ n.toNat)
    (ha : resolve s a = .ok x) (hb : resolve s b = .ok y) :
    exec (.cmp n a b) s = .next ((s.commit [(.s, truthValue (decide (x = y)))]).updatePc none) := by
  simp only [exec, execCmp, compareOperands, needText_of_two_le hn, needOps_ok hn, ha, hb]
  rfl

theorem exec_jmp_ok {s : State} {n : TokenCount} {a : Operand} {v : Byte} (b : Operand) (hn : n ≠ 0)
    (ha : resolve s a = .ok v) (hv : v.toNat ≤ s.pend.toNat) :
    exec (.jmp n a b) s = .next (s.setReg .pc v) := by
  have hone : 1 ≤ n.toNat := Nat.one_le_iff_ne_zero.2 fun h => hn (BitVec.eq_of_toNat_eq h)
  simp only [exec, execJmp, takeJump, needText_pos hn, needOps_ok hone, ha]
  exact congrArg (complete s) (jump_ok hv)

/-! ## `pc` as an operand -/

/-- R24: in any value position `pc` is the immediate of the current `pc`. -/
theorem resolve_pc (s : State) : resolve s (.reg 5) = resolve s (.imm s.pc) := resolve_number s .pc

theorem compareOperands_pc_left (s : State) (n : TokenCount) (b : Operand) (rel : Byte → Byte → Bool) :
    compareOperands n (.reg 5) b s rel = compareOperands n (.imm s.pc) b s rel := by
  simp only [compareOperands, resolve_pc]

theorem compareOperands_pc_right (s : State) (n : TokenCount) (a : Operand) (rel : Byte → Byte → Bool) :
    compareOperands n a (.reg 5) s rel = compareOperands n a (.imm s.pc) s rel := by
  simp only [compareOperands, resolve_pc]

theorem takeJump_pc (s : State) (n : TokenCount) : takeJump n (.reg 5) s = takeJump n (.imm s.pc) s := by
  simp only [takeJump, resolve_pc]

theorem jumpIf_pc (s : State) (taken : Bool) (n : TokenCount) :
    jumpIf taken n (.reg 5) s = jumpIf taken n (.imm s.pc) s := by
  simp only [jumpIf, takeJump_pc]

theorem exec_mov_from_pc (s : State) (n : TokenCount) (o : Operand) :
    exec (.mov n o (.reg 5)) s = exec (.mov n o (.imm s.pc)) s := by
  simp only [exec, execMov, resolve_pc]

theorem exec_add_pc_source (s : State) (n : TokenCount) (o : Operand) :
    exec (.add n (.reg 5) o) s = exec (.add n (.imm s.pc) o) s := by
  simp only [exec, execAdd, resolve_pc]

theorem exec_sub_pc_source (s : State) (n : TokenCount) (o : Operand) :
    exec (.sub n (.reg 5) o) s = exec (.sub n (.imm s.pc) o) s := by
  simp only [exec, execSub, resolve_pc]

theorem exec_compare_pc_left (s : State) (n : TokenCount) (o : Operand) :
    exec (.cmp n (.reg 5) o) s = exec (.cmp n (.imm s.pc) o) s ∧
      exec (.cgt n (.reg 5) o) s = exec (.cgt n (.imm s.pc) o) s ∧
      exec (.clt n (.reg 5) o) s = exec (.clt n (.imm s.pc) o) s := by
  simp only [exec, execCmp, execCgt, execClt, compareOperands_pc_left, and_self]

theorem exec_compare_pc_right (s : State) (n : TokenCount) (o : Operand) :
    exec (.cmp n o (.reg 5)) s = exec (.cmp n o (.imm s.pc)) s ∧
      exec (.cgt n o (.reg 5)) s = exec (.cgt n o (.imm s.pc)) s ∧
      exec (.clt n o (.reg 5)) s = exec (.clt n o (.imm s.pc)) s := by
  simp only [exec, execCmp, execCgt, execClt, compareOperands_pc_right, and_self]

theorem exec_jump_to_pc (s : State) (n : TokenCount) (o : Operand) :
    exec (.jmp n (.reg 5) o) s = exec (.jmp n (.imm s.pc) o) s ∧
      exec (.jnz n (.reg 5) o) s = exec (.jnz n (.imm s.pc) o) s ∧
      exec (.jze n (.reg 5) o) s = exec (.jze n (.imm s.pc) o) s := by
  simp only [exec, execJmp, execJnz, execJze, takeJump_pc, jumpIf_pc, and_self]

/-! ## What an instruction that reads `pc` does with its own index -/

theorem mov_from_pc_stores_pc (s : State) (n : TokenCount) (d : Reg) (hn : 2 ≤ n.toNat) (hd : d ≠ .pc) :
    ∃ t, exec (.mov n (.reg d.number) (.reg 5)) s = .next t ∧ t.getReg d = s.pc := by
  refine ⟨_, exec_mov_ok d hn (resolve_pc s), ?_⟩
  rw [updatePc_getReg _ _ _ hd]
  simp

theorem cmp_pc_compares_pc (s : State) (n : TokenCount) (k : Byte) (hn : 2 ≤ n.toNat) :
    ∃ t, exec (.cmp n (.reg 5) (.imm k)) s = .next t ∧ t.s = if s.pc = k then 1 else 0 := by
  refine ⟨_, exec_cmp_ok hn (resolve_pc s) (resolve_imm s k), ?_⟩
  rw [← getReg_s, updatePc_getReg _ _ _ (by decide)]
  simp [truthValue]

theorem add_pc_adds_pc (s : State) (n : TokenCount) (d : Reg) (hn : 2 ≤ n.toNat) (hd : d ≠ .pc)
    (hsum : s.pc.toNat + (s.getReg d).toNat < 256) :
    ∃ t, exec (.add n (.reg 5) (.reg d.number)) s = .next t ∧
      (t.getReg d).toNat = s.pc.toNat + (s.getReg d).toNat := by
  refine ⟨_, exec_add_ok d hn (resolve_pc s), ?_⟩
  rw [updatePc_getReg _ _ _ hd, commit_append_getReg, if_pos rfl, addClamp_toNat]
  omega

/-- In a running state `pc` is below `PEND`, so the jump is in bounds, and its target is where `pc` already is. -/
theorem jmp_pc_leaves_running_state (s : State) (n : TokenCount) (b : Operand) (hn : n ≠ 0) (hrun : s.Running) :
    exec (.jmp n (.reg 5) b) s = .next s := by
  obtain ⟨-, hlt⟩ := hrun
  exact exec_jmp_ok b hn (resolve_pc s) hlt.le

/-- Settles O24: `Resolve` answers the same for `pc` as for the immediate of the current `pc` (`resolve_pc`), in each
position; the four effects follow from the meanings on operands with values. -/
theorem readingPcGivesTheOwnIndex : Obligations.ReadingPcGivesTheOwnIndex := by
  unfold Obligations.ReadingPcGivesTheOwnIndex
  refine ⟨fun s n o => ?_, mov_from_pc_stores_pc, cmp_pc_compares_pc, add_pc_adds_pc, jmp_pc_leaves_running_state⟩
  obtain ⟨hcmpL, hcgtL, hcltL⟩ := exec_compare_pc_left s n o
  obtain ⟨hcmpR, hcgtR, hcltR⟩ := exec_compare_pc_right s n o
  exact ⟨exec_mov_from_pc s n o, exec_add_pc_source s n o, exec_sub_pc_source s n o, hcmpL, hcmpR, hcgtL, hcgtR,
    hcltL, hcltR, exec_jump_to_pc s n o⟩

end Sys2Proof.Machine
end

section
/-! PROOFS. The execution cycle statements on operands: what `Resolve` and `DstReg` answer (R94, R95). -/

namespace Sys2Proof.Machine

/-- A field of 0 to 5 is the number of a register (R20, R65). -/
theorem exists_number_eq_of_le {f : Byte} (hf : f.toNat ≤ 5) : ∃ d : Reg, d.number = f := by
  cases hreg : regOfNumber f with
  | none => exact absurd (regOfNumber_eq_none.1 hreg) hf.not_gt
  | some d => exact ⟨d, (regOfNumber_eq_some.1 hreg).symm⟩

/-- Settles O13: the value of a register operand is what `Resolve` answers (`hasValue_iff`), and a field above 5 is
refused with its token (`resolve_bad`). -/
theorem resolveGivesTheOperandValue : Obligations.ResolveGivesTheOperandValue := by
  unfold Obligations.ResolveGivesTheOperandValue
  exact fun s f v => ⟨resolve_imm s f, (hasValue_iff s (.reg f) v).1, resolve_bad s f⟩

/-- Settles O14: a field of 0 to 5 is a register's number, which `DstReg` answers; any other destination is refused with
its token. -/
theorem dstRegGivesTheDestination : Obligations.DstRegGivesTheDestination := by
  unfold Obligations.DstRegGivesTheDestination
  refine fun f => ⟨fun hf => ?_, dstReg_bad f, dstReg_imm f⟩
  obtain ⟨d, rfl⟩ := exists_number_eq_of_le hf
  exact ⟨d, dstReg_number d, rfl⟩

end Sys2Proof.Machine
end

section
/-! PROOFS. The execution cycle statements on phases 2 and 3: a word without operand text, and an opcode outside the
dispatch table, fault before any operand is examined (R92, R93). -/

namespace Sys2Proof

/-- Everything the decoder can answer: an instruction with the word's `OP` and `N`, or, for a reserved `OP`, the first
verdict of R68 that applies. -/
theorem decode_cases (w : InstrWord) :
    (∃ i, decode w = .ok i ∧ i.opcode = opField w ∧ i.count = nField w) ∨
      decode w = .error (if nField w = 0 then .missingOperand else .reservedOpcode (opField w)) := by
  unfold decode
  dsimp only
  split
  case h_10 => exact .inr rfl
  all_goals exact .inl ⟨_, rfl, BitVec.eq_of_toNat_eq (Eq.symm ‹_›), rfl⟩

/-- The opcode of an instruction is one of the nine of the opcode map (R63). -/
theorem opcode_mem_map (i : Instr) : 1 ≤ i.opcode.toNat ∧ i.opcode.toNat ≤ 9 := by
  cases i <;> simp [Instr.opcode]

end Sys2Proof

namespace Sys2Proof.Machine

/-- Phase 2 comes first in every meaning (R90, R92). -/
theorem exec_checks_text_first (i : Instr) (t : State) :
    ∃ rest, exec i t = complete t (needText i.count >>= fun _ => rest) := by
  cases i <;> exact ⟨_, rfl⟩

theorem exec_of_no_text {i : Instr} (t : State) (hn : i.count = 0) :
    exec i t = .next (t.raise ⟨.missingOperand, 0⟩) := by
  obtain ⟨rest, hexec⟩ := exec_checks_text_first i t
  rw [hexec, hn, needText_zero]
  rfl

/-- `cgt` and `clt` with operand text and without the option raise UnknownOpcode (R93, R133). -/
theorem exec_of_no_option {i : Instr} {t : State} (hop : i.opcode.toNat = 5 ∨ i.opcode.toNat = 6)
    (hn : i.count ≠ 0) (hopt : t.hasCgtClt = false) :
    exec i t = .next (t.raise ⟨.unknownOpcode, i.opcode.setWidth 9⟩) := by
  cases i
  case cgt n a b | clt n a b =>
    simp only [exec, execCgt, execClt, needText_pos (n := n) hn, needOption_false _ hopt]
    rfl
  all_goals simp [Instr.opcode] at hop

theorem step_of_no_text {s : State} (hrun : s.Running) (hn : nField s.fetch = 0) :
    step s = .next (s.raise ⟨.missingOperand, 0⟩) := by
  rw [running_iff] at hrun
  obtain ⟨i, hdec, -, hcount⟩ | hdec := decode_cases s.fetch
  · rw [step_of_running_ok hrun hdec, exec_of_no_text s (hcount.trans hn)]
  · rw [step_of_running_error hrun hdec, if_pos hn]
    rfl

theorem step_of_reserved_opcode {s : State} (hrun : s.Running) (hn : nField s.fetch ≠ 0)
    (hop : (opField s.fetch).toNat = 0 ∨ 10 ≤ (opField s.fetch).toNat) :
    step s = .next (s.raise ⟨.unknownOpcode, (opField s.fetch).setWidth 9⟩) := by
  rw [running_iff] at hrun
  obtain ⟨i, -, hopcode, -⟩ | hdec := decode_cases s.fetch
  · obtain ⟨hlow, hhigh⟩ := opcode_mem_map i
    rw [hopcode] at hlow hhigh
    omega
  · rw [step_of_running_error hrun hdec, if_neg hn]
    rfl

/-- `decode_cases` serves here without a decoder equation for `OP` 5 and 6: were the word refused, the fault would be
the same. -/
theorem step_of_no_option {s : State} (hrun : s.Running) (hn : nField s.fetch ≠ 0)
    (hop : (opField s.fetch).toNat = 5 ∨ (opField s.fetch).toNat = 6) (hopt : s.hasCgtClt = false) :
    step s = .next (s.raise ⟨.unknownOpcode, (opField s.fetch).setWidth 9⟩) := by
  rw [running_iff] at hrun
  obtain ⟨i, hdec, hopcode, hcount⟩ | hdec := decode_cases s.fetch
  · rw [← hopcode] at hop ⊢
    rw [step_of_running_ok hrun hdec, exec_of_no_option hop (hcount ▸ hn) hopt]
  · rw [step_of_running_error hrun hdec, if_neg hn]
    rfl

/-- Settles O40: an instruction checks its operand text first, and the decoder refuses a reserved opcode without operand
text for that. -/
theorem missingOperandComesFirst : Obligations.MissingOperandComesFirst := by
  unfold Obligations.MissingOperandComesFirst
  exact fun s hrun hn => ⟨_, step_of_no_text hrun hn, rfl⟩

/-- Settles O41: a reserved opcode is refused by the decoder, `cgt` and `clt` without the option by their meaning, before
any operand. -/
theorem unknownOpcodeComesSecond : Obligations.UnknownOpcodeComesSecond := by
  unfold Obligations.UnknownOpcodeComesSecond
  rintro s hrun hn (hreserved | ⟨hoptional, hopt⟩)
  · have hop : (opField s.fetch).toNat = 0 ∨ 10 ≤ (opField s.fetch).toNat := by
      simp only [List.mem_cons, List.not_mem_nil, or_false] at hreserved
      omega
    exact ⟨_, step_of_reserved_opcode hrun hn hop, rfl⟩
  · have hop : (opField s.fetch).toNat = 5 ∨ (opField s.fetch).toNat = 6 := by simpa using hoptional
    exact ⟨_, step_of_no_option hrun hn hop hopt, rfl⟩

end Sys2Proof.Machine
end

section
/-! PROOFS. The execution cycle statement on a step that raises (R101, R160). EmptyProgram is raised by Reset alone (R151):
each check of the Argument Resolver raises another cause, and sequencing keeps that. -/

namespace Sys2Proof.Machine

/-- The computation raises no EmptyProgram. -/
def NeverEmptyProgram {α : Type} (x : Except Raise α) : Prop :=
  ∀ r, x = .error r → r.cause ≠ .emptyProgram

theorem neverEmptyProgram_ok {α : Type} (a : α) : NeverEmptyProgram (.ok a : Except Raise α) := by
  rintro r ⟨⟩

theorem neverEmptyProgram_error {α : Type} {r : Raise} (hr : r.cause ≠ .emptyProgram) :
    NeverEmptyProgram (.error r : Except Raise α) := by
  rintro _ ⟨⟩
  exact hr

theorem NeverEmptyProgram.bind {α β : Type} {x : Except Raise α} {f : α → Except Raise β}
    (hx : NeverEmptyProgram x) (hf : ∀ a, NeverEmptyProgram (f a)) : NeverEmptyProgram (x >>= f) := by
  cases x with
  | error r => exact neverEmptyProgram_error (hx r rfl)
  | ok a => exact hf a

theorem neverEmptyProgram_ite {α : Type} {c : Prop} [Decidable c] {x y : Except Raise α}
    (hx : NeverEmptyProgram x) (hy : NeverEmptyProgram y) : NeverEmptyProgram (if c then x else y) := by
  split
  · exact hx
  · exact hy

theorem neverEmptyProgram_needText (n : TokenCount) : NeverEmptyProgram (needText n) :=
  neverEmptyProgram_ite (neverEmptyProgram_error (by simp)) (neverEmptyProgram_ok ())

theorem neverEmptyProgram_needOption (t : State) (op : BitVec 4) : NeverEmptyProgram (needOption t op) :=
  neverEmptyProgram_ite (neverEmptyProgram_ok ()) (neverEmptyProgram_error (by simp))

theorem neverEmptyProgram_needOps (k : Nat) (n : TokenCount) : NeverEmptyProgram (needOps k n) :=
  neverEmptyProgram_ite (neverEmptyProgram_error (by simp)) (neverEmptyProgram_ok ())

theorem neverEmptyProgram_jump (t : State) (v : Byte) : NeverEmptyProgram (jump t v) :=
  neverEmptyProgram_ite (neverEmptyProgram_error (by simp)) (neverEmptyProgram_ok _)

theorem neverEmptyProgram_resolve (t : State) (o : Operand) : NeverEmptyProgram (resolve t o) := by
  obtain ⟨f, -, h⟩ | ⟨r, -, h⟩ | ⟨f, -, -, h⟩ := resolve_cases t o
  · exact h ▸ neverEmptyProgram_ok f
  · exact h ▸ neverEmptyProgram_ok _
  · exact h ▸ neverEmptyProgram_error (by simp)

theorem neverEmptyProgram_dstReg (o : Operand) : NeverEmptyProgram (dstReg o) := by
  obtain ⟨r, -, h⟩ | ⟨f, -, h⟩ | ⟨f, -, -, h⟩ := dstReg_cases o
  · exact h ▸ neverEmptyProgram_ok r
  · exact h ▸ neverEmptyProgram_error (by simp)
  · exact h ▸ neverEmptyProgram_error (by simp)

theorem neverEmptyProgram_compareOperands (n : TokenCount) (a b : Operand) (t : State) (rel : Byte → Byte → Bool) :
    NeverEmptyProgram (compareOperands n a b t rel) :=
  (neverEmptyProgram_needOps 2 n).bind fun _ => (neverEmptyProgram_resolve t a).bind fun _ =>
    (neverEmptyProgram_resolve t b).bind fun _ => neverEmptyProgram_ok _

theorem neverEmptyProgram_takeJump (n : TokenCount) (a : Operand) (t : State) : NeverEmptyProgram (takeJump n a t) :=
  (neverEmptyProgram_needOps 1 n).bind fun _ => (neverEmptyProgram_resolve t a).bind fun v => neverEmptyProgram_jump t v

theorem neverEmptyProgram_jumpIf (taken : Bool) (n : TokenCount) (a : Operand) (t : State) :
    NeverEmptyProgram (jumpIf taken n a t) :=
  neverEmptyProgram_ite (neverEmptyProgram_takeJump n a t) (neverEmptyProgram_ok _)

/-- What `add` and `sub` share: two values, A first, then the destination. -/
theorem neverEmptyProgram_arithmetic (n : TokenCount) (a b : Operand) (t : State) (eff : Byte → Byte → Reg → Effect) :
    NeverEmptyProgram (do
      needOps 2 n
      let x ← resolve t a
      let y ← resolve t b
      let d ← dstReg b
      return eff x y d) :=
  (neverEmptyProgram_needOps 2 n).bind fun _ => (neverEmptyProgram_resolve t a).bind fun _ =>
    (neverEmptyProgram_resolve t b).bind fun _ => (neverEmptyProgram_dstReg b).bind fun _ => neverEmptyProgram_ok _

/-- Every meaning is the end of an instruction that raises no EmptyProgram. -/
theorem exec_is_complete_neverEmptyProgram (i : Instr) (t : State) : ∃ x, exec i t = complete t x ∧ NeverEmptyProgram x := by
  cases i with
  | mov n a b =>
    exact ⟨_, rfl, (neverEmptyProgram_needText n).bind fun _ => (neverEmptyProgram_needOps 2 n).bind fun _ =>
      (neverEmptyProgram_resolve t b).bind fun _ => (neverEmptyProgram_dstReg a).bind fun _ => neverEmptyProgram_ok _⟩
  | add n a b => exact ⟨_, rfl, (neverEmptyProgram_needText n).bind fun _ => neverEmptyProgram_arithmetic n a b t _⟩
  | sub n a b => exact ⟨_, rfl, (neverEmptyProgram_needText n).bind fun _ => neverEmptyProgram_arithmetic n a b t _⟩
  | cmp n a b => exact ⟨_, rfl, (neverEmptyProgram_needText n).bind fun _ => neverEmptyProgram_compareOperands n a b t _⟩
  | cgt n a b =>
    exact ⟨_, rfl, (neverEmptyProgram_needText n).bind fun _ => (neverEmptyProgram_needOption t 5).bind fun _ =>
      neverEmptyProgram_compareOperands n a b t _⟩
  | clt n a b =>
    exact ⟨_, rfl, (neverEmptyProgram_needText n).bind fun _ => (neverEmptyProgram_needOption t 6).bind fun _ =>
      neverEmptyProgram_compareOperands n a b t _⟩
  | jmp n a _ => exact ⟨_, rfl, (neverEmptyProgram_needText n).bind fun _ => neverEmptyProgram_takeJump n a t⟩
  | jnz n a _ => exact ⟨_, rfl, (neverEmptyProgram_needText n).bind fun _ => neverEmptyProgram_jumpIf _ n a t⟩
  | jze n a _ => exact ⟨_, rfl, (neverEmptyProgram_needText n).bind fun _ => neverEmptyProgram_jumpIf _ n a t⟩

theorem rejectRaise_cause_ne (r : Reject) : (rejectRaise r).cause ≠ .emptyProgram := by
  cases r <;> simp [rejectRaise]

/-- Everything a step can do to the latch: raise a cause other than EmptyProgram, or commit an effect and leave it
clear. -/
theorem step_raises_or_keeps_clear {s t : State} (h : step s = .next t) :
    (∃ r : Raise, r.cause ≠ .emptyProgram ∧ t = s.raise r) ∨ t.fcode = 0 := by
  obtain ⟨hrun, ⟨i, -, hexec⟩ | ⟨r, -, rfl⟩⟩ := step_cases s t h
  · obtain ⟨x, hx, hnever⟩ := exec_is_complete_neverEmptyProgram i s
    obtain ⟨r, hr, rfl⟩ | ⟨e, -, rfl⟩ := complete_cases s t x (hx ▸ hexec)
    · exact .inl ⟨r, hnever r hr, rfl⟩
    · obtain ⟨hcode, -⟩ := condition_running.1 hrun
      exact .inr (by simpa using hcode)
  · exact .inl ⟨_, rejectRaise_cause_ne r, rfl⟩

theorem step_ne_next_of_faulted {t : State} (ht : t.Faulted) (u : State) : step t ≠ .next u := by
  rw [step_of_faulted ((faulted_iff t).1 ht)]
  exact nofun

/-- Settles O44: a step that leaves `FCODE` not 0 has raised, and a raise is a load of the latch. -/
theorem raisingStepOnlyLoadsTheLatch : Obligations.RaisingStepOnlyLoadsTheLatch := by
  unfold Obligations.RaisingStepOnlyLoadsTheLatch
  intro s t hstep hcode
  obtain ⟨r, hcause, ht⟩ | hclear := step_raises_or_keeps_clear hstep
  · exact ⟨r, hcause, ht, step_ne_next_of_faulted hcode⟩
  · exact absurd hclear hcode

end Sys2Proof.Machine
end

section
/-! PROOFS. The execution cycle statement on runs (R102): a run from a start is a run to its state `j` and on from there, so
a stopped state is the last one, and the only one that is not running. -/

namespace Sys2Proof.Machine

theorem applyReset_idem (t : State) : t.applyReset.applyReset = t.applyReset := rfl

/-- What a load leaves is its own Reset (R185). -/
theorem loadProgram_applyReset {ws : List InstrWord} {opt : Bool} {t : State} (h : loadProgram ws opt = some t) :
    t.applyReset = t := by
  unfold loadProgram at h
  split at h
  · obtain rfl := Option.some.inj h
    exact applyReset_idem _
  · cases h

/-- A state that is not running is halted or faulted (R7). -/
theorem condition_ne_running_iff (t : State) : t.condition ≠ .running ↔ t.Halted ∨ t.Faulted := by
  rw [halted_iff, faulted_iff]
  cases t.condition <;> decide

theorem stateAt_one_eq_some {t u : State} : stateAt 1 t = some u ↔ step t = .next u := by
  obtain ⟨-, v, hv⟩ | ⟨hstopped, f, hf⟩ := step_total t
  · rw [stateAt_succ_of_next hv, hv]
    simp
  · rw [stateAt_succ_of_stopped hstopped, hf]
    simp

/-- A run goes on from its state `j` as the run that starts there. -/
theorem stateAt_add (j k : Nat) (t : State) : stateAt (j + k) t = (stateAt j t).bind (stateAt k) := by
  induction j generalizing t with
  | zero => simp
  | succ j ih =>
    rw [Nat.add_right_comm]
    obtain ⟨-, u, hu⟩ | ⟨hstopped, -⟩ := step_total t
    · rw [stateAt_succ_of_next hu, stateAt_succ_of_next hu, ih]
    · rw [stateAt_succ_of_stopped hstopped, stateAt_succ_of_stopped hstopped]
      rfl

theorem stateAt_succ_eq_some {start u : State} {k : Nat} :
    stateAt (k + 1) start = some u ↔ ∃ t, stateAt k start = some t ∧ t.Running ∧ step t = .next u := by
  simp only [stateAt_add k 1, Option.bind_eq_some_iff, stateAt_one_eq_some]
  exact exists_congr fun t => and_congr_right fun _ =>
    ⟨fun h => ⟨(exists_step_next_iff_running t).1 ⟨u, h⟩, h⟩, And.right⟩

/-- No state of a run follows a stopped one. -/
theorem stateAt_eq_none_of_stopped {start t : State} {j k : Nat} (hk : stateAt k start = some t)
    (ht : t.condition ≠ .running) (hj : k < j) : stateAt j start = none := by
  obtain ⟨m, rfl⟩ := Nat.exists_eq_add_of_lt hj
  rw [Nat.add_assoc, stateAt_add, hk]
  exact stateAt_succ_of_stopped ht m

/-- A state of a run has a successor, or is the last one and the result. -/
theorem stateAt_running_or_last {start t : State} {k : Nat} (hk : stateAt k start = some t) :
    (t.Running ∧ ∃ u, stateAt (k + 1) start = some u) ∨
      ((t.Halted ∨ t.Faulted) ∧ RunEndsIn start t ∧ ∀ j, k < j → stateAt j start = none) := by
  obtain ⟨hrun, u, hu⟩ | ⟨hstopped, -⟩ := step_total t
  · have hrun := (running_iff t).2 hrun
    exact .inl ⟨hrun, u, stateAt_succ_eq_some.2 ⟨t, hk, hrun, hu⟩⟩
  · exact .inr ⟨(condition_ne_running_iff t).1 hstopped, ⟨k, hk, hstopped⟩,
      fun j => stateAt_eq_none_of_stopped hk hstopped⟩

/-- A run has at most one result: a later stopped state would follow the first one. -/
theorem runEndsIn_unique {start t u : State} (ht : RunEndsIn start t) (hu : RunEndsIn start u) : t = u := by
  obtain ⟨j, hj, htstop⟩ := ht
  obtain ⟨k, hk, hustop⟩ := hu
  obtain hlt | rfl | hlt := Nat.lt_trichotomy j k
  · cases hk.symm.trans (stateAt_eq_none_of_stopped hj htstop hlt)
  · exact Option.some.inj (hj.symm.trans hk)
  · cases hj.symm.trans (stateAt_eq_none_of_stopped hk hustop hlt)

/-- Where no state of a run is stopped, each is running and so has a successor. -/
theorem runsForever_of_no_end {start : State} (h : ¬∃ t, RunEndsIn start t) : RunsForever start := by
  have hrunning {k t} (hk : stateAt k start = some t) : t.condition = .running :=
    Classical.byContradiction fun hstopped => h ⟨t, k, hk, hstopped⟩
  have hdefined (k : Nat) : ∃ t, stateAt k start = some t := by
    induction k with
    | zero => exact ⟨start, rfl⟩
    | succ k ih =>
      obtain ⟨t, hk⟩ := ih
      obtain ⟨-, hnext⟩ | ⟨-, hend, -⟩ := stateAt_running_or_last hk
      · exact hnext
      · exact absurd ⟨t, hend⟩ h
  intro k
  obtain ⟨t, hk⟩ := hdefined k
  exact ⟨t, hk, hrunning hk⟩

theorem runsForever_iff {start : State} : RunsForever start ↔ ¬∃ t, RunEndsIn start t := by
  refine ⟨?_, runsForever_of_no_end⟩
  rintro hforever ⟨t, k, hk, hstopped⟩
  obtain ⟨u, hu, hrun⟩ := hforever k
  obtain rfl := Option.some.inj (hk.symm.trans hu)
  exact hstopped hrun

/-- Settles O58: a run is cut at any of its states (`stateAt_add`), so a stopped state ends it, and ends it once. -/
theorem aRunIsTheSequenceOfSteps : Obligations.ARunIsTheSequenceOfSteps := by
  unfold Obligations.ARunIsTheSequenceOfSteps
  refine ⟨fun _ _ _ => loadProgram_applyReset, fun start => ⟨stateAt_zero start, fun _ _ => stateAt_succ_eq_some,
    fun _ _ => stateAt_running_or_last, fun _ _ => runEndsIn_unique, ?_, runsForever_iff⟩⟩
  rintro t ⟨-, -, hstopped⟩
  exact (condition_ne_running_iff t).1 hstopped

end Sys2Proof.Machine
end

section
/-! PROOFS. The data movement statement: `mov` (R110). What the last write of a commit leaves is said once here, with an
optional flag write before it. -/

namespace Sys2Proof.Machine

/-- An instruction that commits writes of at most one flag and then its destination: the destination has the last word
(R99), and `pc` is incremented from what the commit left in it (R100). -/
theorem wrote_of_last_write {t : State} {ws : List (Reg × Byte)} {flag : Option Reg} (d : Reg) (v : Byte)
    (hpc : flag ≠ some .pc) (hws : ∀ r, (t.commit ws).getReg r = if some r = flag then 1 else t.getReg r) :
    Wrote t ((t.commit (ws ++ [(d, v)])).updatePc none) d v flag := by
  have hreg (r : Reg) : (t.commit (ws ++ [(d, v)])).getReg r =
      if r = d then v else if some r = flag then 1 else t.getReg r := by
    rw [commit_append_getReg, hws]
  refine ⟨fun r hr => ?_, ?_, ?_, ?_⟩
  · rw [updatePc_getReg _ _ _ hr, hreg]
  · rw [updatePc_none_pc, incPc_toNat, ← getReg_pc, hreg, if_neg hpc.symm, getReg_pc]
    simp only [eq_comm (a := Reg.pc)]
  · simp [SameLatch]
  · exact sameInputs_of_eq (by simp) (by simp) (by simp)

theorem wrote_of_only_write (t : State) (d : Reg) (v : Byte) :
    Wrote t ((t.commit [(d, v)]).updatePc none) d v none :=
  wrote_of_last_write (ws := []) d v nofun fun _ => rfl

theorem mode_of_writable {o : Operand} (h : o.writable = true) : o.mode = 0 := by
  cases o with
  | reg f => rfl
  | imm f => cases h

theorem decode_mov {w : InstrWord} (hop : opField w = 0x1) :
    decode w = .ok (.mov (nField w) (operandA w) (operandB w)) := by
  simp [decode, hop]

/-- R70: a canonical `mov` has two tokens and a register as its destination. -/
theorem mov_wf_fields {n : TokenCount} {a b : Operand} (h : (Instr.mov n a b).wf = true) : n = 2 ∧ a.mode = 0 := by
  simp only [Instr.wf, Bool.and_eq_true, beq_iff_eq] at h
  obtain ⟨⟨hn, ha⟩, -⟩ := h
  exact ⟨hn, mode_of_writable ha⟩

theorem exec_mov_one_token (s : State) (a b : Operand) : exec (.mov 1 a b) s = .next (s.raise ⟨.arity, 1⟩) := by
  have hone : (1 : TokenCount).toNat < 2 := by decide
  simp only [exec, execMov, needText_pos (n := 1) (by decide), needOps_error hone]
  rfl

/-- The value is resolved before the destination is looked up (R98): here the destination is any operand. -/
theorem exec_mov_bad_value {n : TokenCount} {b : Operand} {r : Raise} (s : State) (a : Operand) (hn : 2 ≤ n.toNat)
    (hb : resolve s b = .error r) : exec (.mov n a b) s = .next (s.raise r) := by
  simp only [exec, execMov, needText_of_two_le hn, needOps_ok hn, hb]
  rfl

theorem exec_mov_bad_destination {s : State} {n : TokenCount} {a b : Operand} {v : Byte} {r : Raise} (hn : 2 ≤ n.toNat)
    (hb : resolve s b = .ok v) (ha : dstReg a = .error r) : exec (.mov n a b) s = .next (s.raise r) := by
  simp only [exec, execMov, needText_of_two_le hn, needOps_ok hn, hb, ha]
  rfl

/-- Settles O15: the checks of `mov` in their order, token count, value, destination; each raise loads the latch only,
and where all pass the one write is the value's. -/
theorem movCopiesAValue : Obligations.MovCopiesAValue := by
  unfold Obligations.MovCopiesAValue
  refine ⟨fun w hop _ => decode_mov hop, fun n a b => mov_wf_fields, fun s a b => ?_, fun s n a b hn hb => ?_,
    fun s n a b v hn hb ha => ?_, fun s n d b v hn hb => ?_⟩
  · exact ⟨_, exec_mov_one_token s a b, rfl⟩
  · exact ⟨_, exec_mov_bad_value s a hn (resolve_of_unreadable hb), rfl⟩
  · exact ⟨_, exec_mov_bad_destination hn ((hasValue_iff s b v).1 hb) (dstReg_of_unwritable ha), rfl⟩
  · exact ⟨_, exec_mov_ok d hn ((hasValue_iff s b v).1 hb), wrote_of_only_write s d v⟩

end Sys2Proof.Machine
end

section
/-! PROOFS. The arithmetic statements: `add` and `sub` (R120, R121) and the flag of a clamped result (R124). The two
instructions differ in their flag and their clamped value only, so their faults are settled once, for both. -/

namespace Sys2Proof.Machine

/-! ## The faults of a clamping instruction (R96, R98) -/

/-- What `add` and `sub` share: the token count, the source, the destination read, the destination named. -/
def clampMeaning (flags : Byte → Byte → List (Reg × Byte)) (clamp : Byte → Byte → Byte) (n : TokenCount) (a b : Operand)
    (s : State) : Except Raise Effect := do
  needText n
  needOps 2 n
  let x ← resolve s a
  let y ← resolve s b
  let d ← dstReg b
  return { writes := flags x y ++ [(d, clamp x y)], target := none }

/-- The instruction `mk` builds runs as a clamping instruction with that flag write and that clamped value. -/
def IsClampInstr (mk : TokenCount → Operand → Operand → Instr) (flags : Byte → Byte → List (Reg × Byte))
    (clamp : Byte → Byte → Byte) : Prop :=
  ∀ n a b s, exec (mk n a b) s = complete s (clampMeaning flags clamp n a b s)

theorem isClampInstr_add : IsClampInstr .add addFlagWrites addClamp := fun _ _ _ _ => rfl

theorem isClampInstr_sub : IsClampInstr .sub subFlagWrites subClamp := fun _ _ _ _ => rfl

section
variable {mk : TokenCount → Operand → Operand → Instr} {flags : Byte → Byte → List (Reg × Byte)}
  {clamp : Byte → Byte → Byte} {s : State} {n : TokenCount} {a b : Operand}

theorem IsClampInstr.exec_one_token (h : IsClampInstr mk flags clamp) (s : State) (a b : Operand) :
    exec (mk 1 a b) s = .next (s.raise ⟨.arity, 1⟩) := by
  have hone : (1 : TokenCount).toNat < 2 := by decide
  simp only [h 1 a b s, clampMeaning, needText_pos (n := 1) (by decide), needOps_error hone]
  rfl

/-- The source is resolved first (R98): here the destination is any operand. -/
theorem IsClampInstr.exec_bad_source (h : IsClampInstr mk flags clamp) {r : Raise} (b : Operand) (hn : 2 ≤ n.toNat)
    (ha : resolve s a = .error r) : exec (mk n a b) s = .next (s.raise r) := by
  simp only [h n a b s, clampMeaning, needText_of_two_le hn, needOps_ok hn, ha]
  rfl

/-- A register field above 5 already fails when the destination is read, an immediate only when it is to be written;
the token reported is the same. -/
theorem IsClampInstr.exec_bad_destination (h : IsClampInstr mk flags clamp) {x : Byte} (hn : 2 ≤ n.toNat)
    (ha : resolve s a = .ok x) (hb : Unwritable b) : exec (mk n a b) s = .next (s.raise ⟨.unknownRegister, b.token⟩) := by
  simp only [h n a b s, clampMeaning, needText_of_two_le hn, needOps_ok hn, ha]
  rcases hb with hbad | ⟨f, rfl⟩
  · rw [resolve_of_unreadable hbad]
    rfl
  · rfl

end

/-! ## The clamped values and the flag writes -/

theorem addClamp_eq (x y : Byte) :
    addClamp x y = BitVec.ofNat 8 (if 256 ≤ x.toNat + y.toNat then 255 else x.toNat + y.toNat) := by
  apply BitVec.eq_of_toNat_eq
  rw [addClamp_toNat, BitVec.toNat_ofNat]
  split <;> omega

theorem subClamp_eq (x y : Byte) :
    subClamp x y = BitVec.ofNat 8 (if y.toNat < x.toNat then 0 else y.toNat - x.toNat) := by
  apply BitVec.eq_of_toNat_eq
  rw [subClamp_toNat, BitVec.toNat_ofNat]
  split <;> omega

/-- The condition of R121 on the exact difference, in naturals. -/
theorem subFlagWrites_eq (x y : Byte) : subFlagWrites x y = if y.toNat < x.toNat then [(.udfl, 1)] else [] := by
  have hneg : (y.toNat : Int) - (x.toNat : Int) < 0 ↔ y.toNat < x.toNat := by omega
  simp only [subFlagWrites, hneg]

/-- A flag write under a condition leaves 1 in the flag where the condition holds, and every other register. -/
theorem commit_flag_getReg (t : State) (f r : Reg) (c : Prop) [Decidable c] :
    (t.commit (if c then [(f, 1)] else [])).getReg r = if some r = (if c then some f else none) then 1 else t.getReg r := by
  by_cases hc : c
  · simp [hc]
  · simp [hc]

theorem flag_ne_pc {f : Reg} (c : Prop) [Decidable c] (hf : f ≠ .pc) : (if c then some f else none) ≠ some .pc := by
  split
  · exact fun h => hf (Option.some.inj h)
  · nofun

/-! ## What `add` and `sub` do where they do not raise -/

theorem exec_sub_ok {s : State} {n : TokenCount} {o : Operand} {x : Byte} (d : Reg) (hn : 2 ≤ n.toNat)
    (ho : resolve s o = .ok x) :
    exec (.sub n o (.reg d.number)) s =
      .next ((s.commit (subFlagWrites x (s.getReg d) ++ [(d, subClamp x (s.getReg d))])).updatePc none) := by
  simp only [exec, execSub, needText_of_two_le hn, needOps_ok hn, ho, resolve_number, dstReg_number]
  rfl

theorem exec_add_wrote {s : State} {n : TokenCount} {a : Operand} {x : Byte} (d : Reg) (hn : 2 ≤ n.toNat)
    (ha : HasValue s a x) :
    ∃ t, exec (.add n a (.reg d.number)) s = .next t ∧
      Wrote s t d (BitVec.ofNat 8 (if 256 ≤ x.toNat + (s.getReg d).toNat then 255 else x.toNat + (s.getReg d).toNat))
        (if 256 ≤ x.toNat + (s.getReg d).toNat then some .ovfl else none) := by
  refine ⟨_, exec_add_ok d hn ((hasValue_iff s a x).1 ha), ?_⟩
  rw [addClamp_eq]
  exact wrote_of_last_write d _ (flag_ne_pc _ (by decide)) fun r => commit_flag_getReg s .ovfl r _

theorem exec_sub_wrote {s : State} {n : TokenCount} {a : Operand} {x : Byte} (d : Reg) (hn : 2 ≤ n.toNat)
    (ha : HasValue s a x) :
    ∃ t, exec (.sub n a (.reg d.number)) s = .next t ∧
      Wrote s t d (BitVec.ofNat 8 (if (s.getReg d).toNat < x.toNat then 0 else (s.getReg d).toNat - x.toNat))
        (if (s.getReg d).toNat < x.toNat then some .udfl else none) := by
  refine ⟨_, exec_sub_ok d hn ((hasValue_iff s a x).1 ha), ?_⟩
  rw [subClamp_eq, subFlagWrites_eq]
  exact wrote_of_last_write d _ (flag_ne_pc _ (by decide)) fun r => commit_flag_getReg s .udfl r _

/-! ## The encodings (R63, R70) -/

theorem decode_add {w : InstrWord} (hop : opField w = 0x2) :
    decode w = .ok (.add (nField w) (operandA w) (operandB w)) := by
  simp [decode, hop]

theorem decode_sub {w : InstrWord} (hop : opField w = 0x3) :
    decode w = .ok (.sub (nField w) (operandA w) (operandB w)) := by
  simp [decode, hop]

theorem add_wf_fields {n : TokenCount} {a b : Operand} (h : (Instr.add n a b).wf = true) : n = 2 ∧ b.mode = 0 := by
  simp only [Instr.wf, Bool.and_eq_true, beq_iff_eq] at h
  obtain ⟨⟨hn, -⟩, hb⟩ := h
  exact ⟨hn, mode_of_writable hb⟩

theorem sub_wf_eq_add_wf (n : TokenCount) (a b : Operand) : (Instr.sub n a b).wf = (Instr.add n a b).wf := rfl

/-! ## Reading a written state -/

/-- The destination holds the value it took, the increment of it where it is `pc` (R100): the flag never shows in it. -/
theorem Wrote.getReg_destination {t u : State} {d : Reg} {v : Byte} {flag : Option Reg} (h : Wrote t u d v flag) :
    u.getReg d = if d = .pc then incPc v else v := by
  obtain ⟨hreg, hpc, -, -⟩ := h
  split
  next hd =>
    subst hd
    apply BitVec.eq_of_toNat_eq
    rw [incPc_toNat]
    simpa using hpc
  next hd => simp [hreg d hd]

theorem Wrote.getReg_flag {t u : State} {d f : Reg} {v : Byte} (h : Wrote t u d v (some f)) (hf : f ≠ .pc) (hd : d ≠ f) :
    u.getReg f = 1 := by
  obtain ⟨hreg, -⟩ := h
  rw [hreg f hf, if_neg hd.symm, if_pos rfl]

/-! ## The obligations -/

/-- Settles O16: the faults are those of a clamping instruction; where none is raised, the flag write and then the clamped
sum are committed. -/
theorem addClampsAtTheTop : Obligations.AddClampsAtTheTop := by
  unfold Obligations.AddClampsAtTheTop
  refine ⟨fun w hop _ => decode_add hop, fun n a b => add_wf_fields, fun s a b => ?_, fun s n a b hn ha => ?_,
    fun s n a b x hn ha hb => ?_, fun s n a d x hn ha => exec_add_wrote d hn ha⟩
  · exact ⟨_, isClampInstr_add.exec_one_token s a b, rfl⟩
  · exact ⟨_, isClampInstr_add.exec_bad_source b hn (resolve_of_unreadable ha), rfl⟩
  · exact ⟨_, isClampInstr_add.exec_bad_destination hn ((hasValue_iff s a x).1 ha) hb, rfl⟩

/-- Settles O17: the faults are those of a clamping instruction; where none is raised, the flag write and then the clamped
difference are committed. -/
theorem subClampsAtZero : Obligations.SubClampsAtZero := by
  unfold Obligations.SubClampsAtZero
  refine ⟨fun w hop _ => decode_sub hop, fun n a b hwf => add_wf_fields (sub_wf_eq_add_wf n a b ▸ hwf), fun s a b => ?_,
    fun s n a b hn ha => ?_, fun s n a b x hn ha hb => ?_, fun s n a d x hn ha => exec_sub_wrote d hn ha⟩
  · exact ⟨_, isClampInstr_sub.exec_one_token s a b, rfl⟩
  · exact ⟨_, isClampInstr_sub.exec_bad_source b hn (resolve_of_unreadable ha), rfl⟩
  · exact ⟨_, isClampInstr_sub.exec_bad_destination hn ((hasValue_iff s a x).1 ha) hb, rfl⟩

/-- Settles O28: what `add` and `sub` write, at a sum of 256 or more and at a negative difference. In `pc` 255 stays, since
the increment saturates, and 0 becomes 1. -/
theorem clampSetsTheFlagOrLosesToTheDestination : Obligations.ClampSetsTheFlagOrLosesToTheDestination := by
  unfold Obligations.ClampSetsTheFlagOrLosesToTheDestination
  constructor
  · intro s n a d x hn ha hsum
    obtain ⟨t, ht, hw⟩ := exec_add_wrote d hn ha
    simp only [if_pos hsum] at hw
    have hsat : incPc 255#8 = 255#8 := by decide
    refine ⟨t, ht, ?_, hw.getReg_flag (by decide)⟩
    rw [hw.getReg_destination, hsat, ite_self]
    rfl
  · intro s n a d x hn ha hdiff
    obtain ⟨t, ht, hw⟩ := exec_sub_wrote d hn ha
    simp only [if_pos hdiff] at hw
    exact ⟨t, ht, hw.getReg_destination, hw.getReg_flag (by decide)⟩

end Sys2Proof.Machine
end

section
/-! PROOFS. The comparison statement: `cmp` (R130). The faults the three comparisons share are said
of `compareOperands`, for every relation. -/

namespace Sys2Proof.Machine

/-! ## The operand faults and the truth value of a comparison (R96, R98) -/

section
variable {s : State} {n : TokenCount} {a b : Operand} {x y : Byte} {r : Raise}

theorem compareOperands_one_token (s : State) (a b : Operand) (rel : Byte → Byte → Bool) :
    compareOperands 1 a b s rel = .error ⟨.arity, 1⟩ := by
  have hone : (1 : TokenCount).toNat < 2 := by decide
  simp only [compareOperands, needOps_error hone]
  rfl

/-- Operand A is resolved first (R98): here B is any operand. -/
theorem compareOperands_bad_left (b : Operand) (rel : Byte → Byte → Bool) (hn : 2 ≤ n.toNat)
    (ha : resolve s a = .error r) : compareOperands n a b s rel = .error r := by
  simp only [compareOperands, needOps_ok hn, ha]
  rfl

theorem compareOperands_bad_right (rel : Byte → Byte → Bool) (hn : 2 ≤ n.toNat) (ha : resolve s a = .ok x)
    (hb : resolve s b = .error r) : compareOperands n a b s rel = .error r := by
  simp only [compareOperands, needOps_ok hn, ha, hb]
  rfl

theorem truthValue_decide (c : Prop) [Decidable c] : truthValue (decide c) = if c then 1 else 0 := by
  simp [truthValue]

/-! ## `cmp` (R130) -/

theorem decode_cmp {w : InstrWord} (hop : opField w = 0x4) :
    decode w = .ok (.cmp (nField w) (operandA w) (operandB w)) := by
  simp [decode, hop]

/-- R70: the canonical comparisons have two tokens. -/
theorem count_of_wfCompare (h : wfCompare n a b = true) : n = 2 := by
  simp only [wfCompare, Bool.and_eq_true, beq_iff_eq] at h
  obtain ⟨⟨hn, -⟩, -⟩ := h
  exact hn

/-- A raise of the comparison is the raise of `cmp`: phase 2 passes, and `cmp` has no option (R93). -/
theorem exec_cmp_of_compare_error (htext : needText n = .ok ())
    (h : compareOperands n a b s (fun x y => decide (x = y)) = .error r) :
    exec (.cmp n a b) s = .next (s.raise r) := by
  simp only [exec, execCmp, htext]
  exact congrArg (complete s) h

theorem exec_cmp_wrote (hn : 2 ≤ n.toNat) (ha : HasValue s a x) (hb : HasValue s b y) :
    ∃ t, exec (.cmp n a b) s = .next t ∧ Wrote s t .s (if x = y then 1 else 0) none := by
  refine ⟨_, exec_cmp_ok hn ((hasValue_iff s a x).1 ha) ((hasValue_iff s b y).1 hb), ?_⟩
  rw [truthValue_decide]
  exact wrote_of_only_write s .s _

end

/-- Settles O18: the faults are those of a comparison, token count, operand A, operand B; where none is raised, the one
write is the truth value in `s`. -/
theorem cmpTestsEquality : Obligations.CmpTestsEquality := by
  unfold Obligations.CmpTestsEquality
  refine ⟨fun w hop _ => decode_cmp hop, fun n a b => count_of_wfCompare, fun s a b => ?_, fun s n a b hn ha => ?_,
    fun s n a b x hn ha hb => ?_, fun s n a b x y hn ha hb => exec_cmp_wrote hn ha hb⟩
  · exact ⟨_, exec_cmp_of_compare_error (needText_pos (by decide)) (compareOperands_one_token s a b _), rfl⟩
  · exact ⟨_, exec_cmp_of_compare_error (needText_of_two_le hn)
      (compareOperands_bad_left b _ hn (resolve_of_unreadable ha)), rfl⟩
  · exact ⟨_, exec_cmp_of_compare_error (needText_of_two_le hn)
      (compareOperands_bad_right _ hn ((hasValue_iff s a x).1 ha) (resolve_of_unreadable hb)), rfl⟩

end Sys2Proof.Machine
end

section
/-! PROOFS. The branch statements: `jmp`, `jnz`, `jze` (R140 to R143). A conditional jump is `jmp` where its condition
holds and only advances `pc` where it does not, so the faults and the target are settled once, for `jmp`. -/

namespace Sys2Proof.Machine

/-! ## The encodings (R63, R70) -/

theorem decode_jmp {w : InstrWord} (hop : opField w = 0x7) :
    decode w = .ok (.jmp (nField w) (operandA w) (operandB w)) := by
  simp [decode, hop]

theorem decode_jnz {w : InstrWord} (hop : opField w = 0x8) :
    decode w = .ok (.jnz (nField w) (operandA w) (operandB w)) := by
  simp [decode, hop]

theorem decode_jze {w : InstrWord} (hop : opField w = 0x9) :
    decode w = .ok (.jze (nField w) (operandA w) (operandB w)) := by
  simp [decode, hop]

/-- R70: the canonical jumps have one token and a blank operand B. -/
theorem fields_of_wfJump {n : TokenCount} {a b : Operand} (h : wfJump n a b = true) :
    n = 1 ∧ b.mode = 0 ∧ b.field = 0 := by
  simp only [wfJump, Bool.and_eq_true, beq_iff_eq] at h
  obtain ⟨⟨hn, -⟩, rfl⟩ := h
  exact ⟨hn, rfl, rfl⟩

section
variable {s : State} {n : TokenCount} {a : Operand}

/-! ## The faults of a jump that is taken, in their order (R98, R140) -/

/-- With operand text a jump has the one token it needs (R96), so `jmp` is the resolution and the check of its target. -/
theorem exec_jmp_eq (s : State) (a b : Operand) (hn : n ≠ 0) :
    exec (.jmp n a b) s = complete s (resolve s a >>= jump s) := by
  have hone : 1 ≤ n.toNat := Nat.one_le_iff_ne_zero.2 fun h => hn (BitVec.eq_of_toNat_eq h)
  simp only [exec, execJmp, takeJump, needText_pos hn, needOps_ok hone]
  rfl

theorem exec_jmp_bad_target {r : Raise} (b : Operand) (hn : n ≠ 0) (ha : resolve s a = .error r) :
    exec (.jmp n a b) s = .next (s.raise r) := by
  rw [exec_jmp_eq s a b hn, ha]
  rfl

theorem exec_jmp_out_of_bounds {x : Byte} (b : Operand) (hn : n ≠ 0) (ha : resolve s a = .ok x)
    (hx : s.pend.toNat < x.toNat) : exec (.jmp n a b) s = .next (s.raise ⟨.outOfBoundsJump, x.setWidth 9⟩) := by
  rw [exec_jmp_eq s a b hn, ha]
  exact congrArg (complete s) (jump_error hx)

/-! ## A conditional jump is `jmp`, or evaluates nothing (R141 to R143) -/

theorem exec_jnz_taken (n : TokenCount) (a b : Operand) (hs : s.s ≠ 0) : exec (.jnz n a b) s = exec (.jmp n a b) s := by
  simp only [exec, execJnz, execJmp, jumpIf, decide_eq_true hs, if_true]

theorem exec_jze_taken (n : TokenCount) (a b : Operand) (hs : s.s = 0) : exec (.jze n a b) s = exec (.jmp n a b) s := by
  simp only [exec, execJze, execJmp, jumpIf, decide_eq_true hs, if_true]

theorem exec_jnz_not_taken (a b : Operand) (hn : n ≠ 0) (hs : s.s = 0) :
    exec (.jnz n a b) s = .next (s.updatePc none) := by
  simp only [exec, execJnz, jumpIf, needText_pos hn, decide_eq_false (not_not_intro hs)]
  rfl

theorem exec_jze_not_taken (a b : Operand) (hn : n ≠ 0) (hs : s.s ≠ 0) :
    exec (.jze n a b) s = .next (s.updatePc none) := by
  simp only [exec, execJze, jumpIf, needText_pos hn, decide_eq_false hs]
  rfl

end

theorem onlyAdvanced_updatePc (t : State) : OnlyAdvanced t (t.updatePc none) :=
  ⟨rfl, incPc_toNat t.pc⟩

/-! ## The obligations -/

/-- Settles O21: the target is resolved, which may raise, then checked against `PEND`, which may raise; a target that
passes both is stored in `pc`. -/
theorem jmpGoesToTheTarget : Obligations.JmpGoesToTheTarget := by
  unfold Obligations.JmpGoesToTheTarget
  refine ⟨fun w hop _ => decode_jmp hop, fun n a b => fields_of_wfJump, fun s n a b hn ha => ?_,
    fun s n a b x hn ha hx => ?_, fun s n a b x hn ha hx => ?_⟩
  · exact ⟨_, exec_jmp_bad_target b hn (resolve_of_unreadable ha), rfl⟩
  · exact ⟨_, exec_jmp_out_of_bounds b hn ((hasValue_iff s a x).1 ha) hx, rfl⟩
  · exact exec_jmp_ok b hn ((hasValue_iff s a x).1 ha) hx

/-- Settles O25: the branch not taken holds no operand, so what the operands are plays no part. -/
theorem notTakenJumpIgnoresItsOperand : Obligations.NotTakenJumpIgnoresItsOperand := by
  unfold Obligations.NotTakenJumpIgnoresItsOperand
  exact fun s n a b hn => ⟨fun hs => ⟨_, exec_jnz_not_taken a b hn hs, onlyAdvanced_updatePc s⟩,
    fun hs => ⟨_, exec_jze_not_taken a b hn hs, onlyAdvanced_updatePc s⟩⟩

/-- Settles O22: where `s` is not zero `jnz` is `jmp`, whose clauses hold of it; where `s` is zero it is not taken. -/
theorem jnzJumpsWhenNotZero : Obligations.JnzJumpsWhenNotZero := by
  unfold Obligations.JnzJumpsWhenNotZero
  obtain ⟨-, -, hbad, hfar, hnear⟩ := jmpGoesToTheTarget
  refine ⟨fun w hop _ => decode_jnz hop, fun n a b => fields_of_wfJump, fun s n a b hn hs ha => ?_,
    fun s n a b x hn hs ha hx => ?_, fun s n a b x hn hs ha hx => ?_, fun s n a b hn hs => ?_⟩
  · exact exec_jnz_taken n a b hs ▸ hbad s n a b hn ha
  · exact exec_jnz_taken n a b hs ▸ hfar s n a b x hn ha hx
  · exact exec_jnz_taken n a b hs ▸ hnear s n a b x hn ha hx
  · exact (notTakenJumpIgnoresItsOperand s n a b hn).1 hs

/-- Settles O23: where `s` is zero `jze` is `jmp`, whose clauses hold of it; where `s` is not zero it is not taken. -/
theorem jzeJumpsWhenZero : Obligations.JzeJumpsWhenZero := by
  unfold Obligations.JzeJumpsWhenZero
  obtain ⟨-, -, hbad, hfar, hnear⟩ := jmpGoesToTheTarget
  refine ⟨fun w hop _ => decode_jze hop, fun n a b => fields_of_wfJump, fun s n a b hn hs ha => ?_,
    fun s n a b x hn hs ha hx => ?_, fun s n a b x hn hs ha hx => ?_, fun s n a b hn hs => ?_⟩
  · exact exec_jze_taken n a b hs ▸ hbad s n a b hn ha
  · exact exec_jze_taken n a b hs ▸ hfar s n a b x hn ha hx
  · exact exec_jze_taken n a b hs ▸ hnear s n a b x hn ha hx
  · exact (notTakenJumpIgnoresItsOperand s n a b hn).2 hs

end Sys2Proof.Machine
end

section
/-! PROOFS. The exception statements: the priority list of faults (R155), Arity (R154), OutOfBoundsJump (R157) and
EmptyProgram (R151). The raise of a meaning is read off its checks, one after the other, and is compared once, for every
instruction, with the list `faultOf` writes from the word's fields; the statements about single faults follow from the
list. -/

namespace Sys2Proof

/-- The word of a decoded instruction has the instruction's fields (R61, R63). -/
theorem fields_of_decode {w : InstrWord} {i : Instr} (h : decode w = .ok i) :
    opField w = i.opcode ∧ nField w = i.count ∧ operandA w = i.opA ∧ operandB w = i.opB := by
  unfold decode at h
  dsimp only at h
  split at h
  case h_10 => cases h
  all_goals
    cases h
    exact ⟨BitVec.eq_of_toNat_eq ‹_›, rfl, rfl, rfl⟩

/-- The words the decoder refuses are those of a reserved `OP` (R63, R68). -/
theorem reserved_of_reject {w : InstrWord} {r : Reject} (h : decode w = .error r) :
    opField w = 0 ∨ 10 ≤ (opField w).toNat := by
  unfold decode at h
  dsimp only at h
  split at h
  case h_10 =>
    simp only [imp_false] at *
    bv_omega
  all_goals cases h

end Sys2Proof

namespace Sys2Proof.Machine

/-! ## What a computation raises -/

/-- The raise of a computation, if it raises. -/
def raiseOf {α : Type} : Except Raise α → Option Raise
  | .error r => some r
  | .ok _ => none

@[simp] theorem raiseOf_error {α : Type} (r : Raise) : raiseOf (.error r : Except Raise α) = some r := rfl
@[simp] theorem raiseOf_ok {α : Type} (a : α) : raiseOf (.ok a : Except Raise α) = none := rfl
@[simp] theorem raiseOf_pure {α : Type} (a : α) : raiseOf (pure a : Except Raise α) = none := rfl

/-- The first of two checks that fails is the one that raises (R155). -/
theorem raiseOf_bind {α β : Type} {x : Except Raise α} {f : α → Except Raise β} {later : Option Raise}
    (h : ∀ v, x = .ok v → raiseOf (f v) = later) : raiseOf (x >>= f) = (raiseOf x).or later := by
  cases x with
  | error r => rfl
  | ok v => exact h v rfl

section
variable {β : Type} (f : Unit → Except Raise β)

theorem raiseOf_needText_bind (n : TokenCount) :
    raiseOf (needText n >>= f) = if n = 0 then some ⟨.missingOperand, 0⟩ else raiseOf (f ()) := by
  unfold needText
  split <;> rfl

theorem raiseOf_needOption_bind (t : State) (op : BitVec 4) :
    raiseOf (needOption t op >>= f) = if t.hasCgtClt then raiseOf (f ()) else some ⟨.unknownOpcode, op.setWidth 9⟩ := by
  unfold needOption
  split <;> rfl

theorem raiseOf_needOps_bind (k : Nat) (n : TokenCount) :
    raiseOf (needOps k n >>= f) = if n.toNat < k then some ⟨.arity, n.setWidth 9⟩ else raiseOf (f ()) := by
  unfold needOps
  split <;> rfl

end

/-! ## The checks of operands against items 5 and 6 of the list -/

theorem readable_number (r : Reg) : (Operand.reg r.number).readable = true := by
  cases r <;> rfl

theorem writable_number (r : Reg) : (Operand.reg r.number).writable = true := readable_number r

theorem readable_bad {f : Byte} (h : 5 < f.toNat) : (Operand.reg f).readable = false :=
  decide_eq_false (Nat.not_lt.2 h)

theorem firstUnreadable_cons (o : Operand) (os : List Operand) :
    firstUnreadable (o :: os) = (firstUnreadable [o]).or (firstUnreadable os) := by
  simp only [firstUnreadable]
  split <;> rfl

theorem raiseOf_resolve (t : State) (o : Operand) : raiseOf (resolve t o) = firstUnreadable [o] := by
  obtain ⟨f, rfl, h⟩ | ⟨r, rfl, h⟩ | ⟨f, rfl, hf, h⟩ := resolve_cases t o
  · rfl
  · simp [h, firstUnreadable, readable_number]
  · simp [h, firstUnreadable, readable_bad hf]

theorem raiseOf_dstReg (o : Operand) : raiseOf (dstReg o) = badDestination o := by
  obtain ⟨r, rfl, h⟩ | ⟨f, rfl, h⟩ | ⟨f, rfl, hf, h⟩ := dstReg_cases o
  · simp [h, badDestination, writable_number]
  · rfl
  · have hbad : (Operand.reg f).writable = false := readable_bad hf
    simp [h, badDestination, hbad]

theorem readableValue_of_resolve {t : State} {o : Operand} {v : Byte} (h : resolve t o = .ok v) :
    readableValue t o = v := by
  obtain ⟨f, rfl, hok⟩ | ⟨r, rfl, hok⟩ | ⟨f, -, -, herr⟩ := resolve_cases t o
  · exact Except.ok.inj h
  · simpa [readableValue] using Except.ok.inj (hok.symm.trans h)
  · cases herr.symm.trans h

theorem raiseOf_jump {t : State} {o : Operand} {v : Byte} (h : resolve t o = .ok v) :
    raiseOf (jump t v) = badTarget t o := by
  simp only [badTarget, readableValue_of_resolve h]
  split
  next hv => rw [jump_error hv, raiseOf_error]
  next hv => rw [jump_ok (Nat.not_lt.1 hv), raiseOf_ok]

/-- A resolution raises for an operand that cannot be read, and what comes after it sees its value. -/
theorem raiseOf_resolve_bind {β : Type} {t : State} {o : Operand} {f : Byte → Except Raise β} {later : Option Raise}
    (h : ∀ v, resolve t o = .ok v → raiseOf (f v) = later) :
    raiseOf (resolve t o >>= f) = (firstUnreadable [o]).or later := by
  rw [raiseOf_bind h, raiseOf_resolve]

/-- The end of `mov`, `add` and `sub`: the destination is looked up, and nothing after that raises. -/
theorem raiseOf_dstReg_bind (o : Operand) (eff : Reg → Effect) :
    raiseOf (dstReg o >>= fun d => pure (eff d)) = badDestination o := by
  rw [raiseOf_bind (later := none) fun _ _ => rfl, raiseOf_dstReg, Option.or_none]

/-! ## The operand checks of each kind of instruction (R98) -/

section
variable (t : State) (n : TokenCount) (a b : Operand)

theorem raiseOf_mov_operands (eff : Byte → Reg → Effect) :
    raiseOf (resolve t b >>= fun v => dstReg a >>= fun d => pure (eff v d)) =
      (firstUnreadable [b]).or (badDestination a) :=
  raiseOf_resolve_bind fun v _ => raiseOf_dstReg_bind a (eff v)

theorem raiseOf_clampMeaning (flags : Byte → Byte → List (Reg × Byte)) (clamp : Byte → Byte → Byte) :
    raiseOf (clampMeaning flags clamp n a b t) =
      if n = 0 then some ⟨.missingOperand, 0⟩
      else if n.toNat < 2 then some ⟨.arity, n.setWidth 9⟩
      else (firstUnreadable [a, b]).or (badDestination b) := by
  rw [clampMeaning, raiseOf_needText_bind, raiseOf_needOps_bind, firstUnreadable_cons, Option.or_assoc]
  rw [raiseOf_resolve_bind fun x _ => raiseOf_resolve_bind fun y _ => raiseOf_dstReg_bind b _]

theorem raiseOf_compareOperands (rel : Byte → Byte → Bool) :
    raiseOf (compareOperands n a b t rel) =
      if n.toNat < 2 then some ⟨.arity, n.setWidth 9⟩ else firstUnreadable [a, b] := by
  rw [compareOperands, raiseOf_needOps_bind, firstUnreadable_cons]
  rw [raiseOf_resolve_bind fun x _ => raiseOf_resolve_bind (later := none) fun y _ => rfl, Option.or_none]

/-- A jump that is taken has with its operand text the one token it needs (R96), so none is missing; a jump that is not
taken checks nothing (R143). -/
theorem raiseOf_jumpIf (taken : Bool) :
    raiseOf (needText n >>= fun _ => jumpIf taken n a t) =
      if n = 0 then some ⟨.missingOperand, 0⟩
      else if taken then (firstUnreadable [a]).or (badTarget t a)
      else none := by
  rw [raiseOf_needText_bind]
  split
  next => rfl
  next hn =>
    have hone : 1 ≤ n.toNat := Nat.one_le_iff_ne_zero.2 fun h => hn (BitVec.eq_of_toNat_eq h)
    cases taken with
    | false => rfl
    | true =>
      rw [jumpIf, if_pos rfl, if_pos rfl, takeJump, raiseOf_needOps_bind, if_neg hone.not_gt,
        raiseOf_resolve_bind fun v hv => raiseOf_jump hv]

end

/-! ## A meaning raises the first fault of the list (R155) -/

theorem faultOf_encode (t : State) (i : Instr) :
    faultOf t (encode i) =
      if i.count = 0 then some ⟨.missingOperand, 0⟩
      else if absentOpcode t i.opcode then some ⟨.unknownOpcode, i.opcode.setWidth 9⟩
      else if i.opcode = 0x8 && t.s = 0 then none
      else if i.opcode = 0x9 && t.s ≠ 0 then none
      else operandFault t i.opcode i.count i.opA i.opB := by
  simp [faultOf, encode]

/-- The list reads a word through the fields that make its instruction. -/
theorem faultOf_of_decode {w : InstrWord} {i : Instr} (t : State) (h : decode w = .ok i) :
    faultOf t w = faultOf t (encode i) := by
  obtain ⟨hop, hn, ha, hb⟩ := fields_of_decode h
  rw [faultOf_encode, faultOf, hop, hn, ha, hb]

/-- Every meaning is the end of an instruction that raises what the list says. -/
theorem exec_is_complete_of_faultOf (i : Instr) (t : State) :
    ∃ x, exec i t = complete t x ∧ raiseOf x = faultOf t (encode i) := by
  rw [faultOf_encode, absentOpcode, operandFault]
  cases i
  all_goals dsimp only [Instr.count, Instr.opcode, Instr.opA, Instr.opB]
  case mov n a b =>
    refine ⟨_, rfl, ?_⟩
    rw [raiseOf_needText_bind, raiseOf_needOps_bind, raiseOf_mov_operands t a b fun v d => ⟨[(d, v)], none⟩]
    simp
  case add n a b | sub n a b =>
    refine ⟨_, rfl, (raiseOf_clampMeaning t n a b _ _).trans ?_⟩
    simp
  case cmp n a b =>
    refine ⟨_, rfl, ?_⟩
    rw [raiseOf_needText_bind, raiseOf_compareOperands]
    simp
  case cgt n a b | clt n a b =>
    refine ⟨_, rfl, ?_⟩
    rw [raiseOf_needText_bind, raiseOf_needOption_bind, raiseOf_compareOperands]
    cases t.hasCgtClt <;> simp
  case jmp n a b =>
    refine ⟨_, rfl, (raiseOf_jumpIf t n a true).trans ?_⟩
    simp
  case jnz n a b | jze n a b =>
    refine ⟨_, rfl, (raiseOf_jumpIf t n a _).trans ?_⟩
    simp

/-- Everything a meaning can do, with the list deciding which: it raises the fault the list names, or it names none and
an effect is committed. -/
theorem exec_cases_faultOf (i : Instr) (t : State) :
    (∃ r, faultOf t (encode i) = some r ∧ exec i t = .next (t.raise r)) ∨
      (faultOf t (encode i) = none ∧ ∃ e : Effect, exec i t = .next ((t.commit e.writes).updatePc e.target)) := by
  obtain ⟨x, hexec, hraise⟩ := exec_is_complete_of_faultOf i t
  cases x with
  | error r => exact .inl ⟨r, hraise.symm, hexec⟩
  | ok e => exact .inr ⟨hraise.symm, e, hexec⟩

/-- A word the decoder refuses raises the first fault of the list too (R68). -/
theorem faultOf_of_reject {w : InstrWord} {r : Reject} (t : State) (h : decode w = .error r) :
    faultOf t w = some (rejectRaise r) := by
  have habsent : absentOpcode t (opField w) = true := by
    simpa [absentOpcode] using Or.inl (reserved_of_reject h)
  obtain ⟨i, hok, -⟩ | herr := decode_cases w
  · cases hok.symm.trans h
  · obtain rfl := Except.error.inj (herr.symm.trans h)
    rw [faultOf, if_pos habsent]
    split <;> rfl

theorem step_cases_faultOf {s : State} (hrun : s.Running) :
    (∃ r, faultOf s s.fetch = some r ∧ step s = .next (s.raise r)) ∨
      (faultOf s s.fetch = none ∧ ∃ e : Effect, step s = .next ((s.commit e.writes).updatePc e.target)) := by
  rw [running_iff] at hrun
  cases hdec : decode s.fetch with
  | ok i =>
    rw [step_of_running_ok hrun hdec, faultOf_of_decode s hdec]
    exact exec_cases_faultOf i s
  | error r => exact .inl ⟨_, faultOf_of_reject s hdec, step_of_running_error hrun hdec⟩

/-! ## What the list names, kind by kind -/

/-- The jumps that are taken in `t` (R140 to R142). -/
def TakenJump (t : State) (op : BitVec 4) : Prop :=
  op = 0x7 ∨ (op = 0x8 ∧ t.s ≠ 0) ∨ (op = 0x9 ∧ t.s = 0)

/-- Items 5 and 6 of the list for a taken jump with target operand `o`. -/
def targetFault (t : State) (o : Operand) : Option Raise := (firstUnreadable [o]).or (badTarget t o)

theorem targetFault_of_unreadable {t : State} {o : Operand} (h : Unreadable o) :
    targetFault t o = some ⟨.unknownRegister, o.token⟩ := by
  rw [targetFault, ← raiseOf_resolve t, resolve_of_unreadable h]
  rfl

theorem targetFault_of_hasValue {t : State} {o : Operand} {x : Byte} (h : HasValue t o x) :
    targetFault t o = if t.pend.toNat < x.toNat then some ⟨.outOfBoundsJump, x.setWidth 9⟩ else none := by
  have hx := (hasValue_iff t o x).1 h
  rw [targetFault, ← raiseOf_resolve t, hx, badTarget, readableValue_of_resolve hx]
  rfl

theorem targetFault_ne_arity (t : State) (o : Operand) (info : BitVec 9) : targetFault t o ≠ some ⟨.arity, info⟩ := by
  obtain hbad | ⟨x, hx⟩ := unreadable_or_hasValue t o
  · simp [targetFault_of_unreadable hbad]
  · simp [targetFault_of_hasValue hx]

theorem targetFault_eq_outOfBounds {t : State} {o : Operand} {info : BitVec 9} :
    targetFault t o = some ⟨.outOfBoundsJump, info⟩ ↔
      ∃ x, HasValue t o x ∧ t.pend.toNat < x.toNat ∧ info = x.setWidth 9 := by
  constructor
  · intro h
    obtain hbad | ⟨x, hx⟩ := unreadable_or_hasValue t o
    · simp [targetFault_of_unreadable hbad] at h
    · simp only [targetFault_of_hasValue hx, Option.ite_none_right_eq_some, Option.some.injEq, Raise.mk.injEq] at h
      obtain ⟨hfar, -, hinfo⟩ := h
      exact ⟨x, hx, hfar, hinfo.symm⟩
  · rintro ⟨x, hx, hfar, rfl⟩
    rw [targetFault_of_hasValue hx, if_pos hfar]

theorem firstUnreadable_cause {os : List Operand} {r : Raise} (h : firstUnreadable os = some r) :
    r.cause = .unknownRegister := by
  induction os with
  | nil => cases h
  | cons o os ih =>
    rw [firstUnreadable] at h
    split at h
    · exact ih h
    · cases h
      rfl

theorem firstUnreadable_or_badDestination_cause {os : List Operand} {o : Operand} {r : Raise}
    (h : (firstUnreadable os).or (badDestination o) = some r) : r.cause = .unknownRegister := by
  obtain h | ⟨-, h⟩ := Option.or_eq_some_iff.1 h
  · exact firstUnreadable_cause h
  · rw [badDestination] at h
    split at h
    · cases h
    · cases h
      rfl

theorem operandFault_cause {t : State} {op : BitVec 4} {n : TokenCount} {a b : Operand} {r : Raise} (hop : op.toNat ≤ 6)
    (h : operandFault t op n a b = some r) : r.cause = .arity ∨ r.cause = .unknownRegister := by
  simp only [operandFault, hop] at h
  split_ifs at h
  · cases h
    exact .inl rfl
  · exact .inr (firstUnreadable_or_badDestination_cause h)
  · exact .inr (firstUnreadable_or_badDestination_cause h)
  · exact .inr (firstUnreadable_cause h)

theorem operandFault_jump {op : BitVec 4} (t : State) (n : TokenCount) (a b : Operand) (hop : 7 ≤ op.toNat) :
    operandFault t op n a b = targetFault t a := by
  have hlow : ¬op.toNat ≤ 6 := by omega
  have hmov : op ≠ 1#4 := by bv_omega
  have hclamp : ¬(op = 2#4 ∨ op = 3#4) := by bv_omega
  simp [operandFault, targetFault, hlow, hmov, hclamp]

/-- Everything the list can name: a fault of phases 2 and 3, an operand fault of an instruction that does not jump, or a
target fault of a taken jump. -/
theorem faultOf_cases {t : State} {w : InstrWord} {r : Raise} (h : faultOf t w = some r) :
    (r.cause = .missingOperand ∨ r.cause = .unknownOpcode) ∨
    ((opField w).toNat ≤ 6 ∧ (r.cause = .arity ∨ r.cause = .unknownRegister)) ∨
    (nField w ≠ 0 ∧ TakenJump t (opField w) ∧ targetFault t (operandA w) = some r) := by
  unfold faultOf at h
  split_ifs at h with hn habsent hjnz hjze
  · cases h
    exact .inl (.inl rfl)
  · cases h
    exact .inl (.inr rfl)
  · obtain hlow | hjump : (opField w).toNat ≤ 6 ∨ 7 ≤ (opField w).toNat := by omega
    · exact .inr (.inl ⟨hlow, operandFault_cause hlow h⟩)
    · have htop : (opField w).toNat < 10 := by
        simp only [absentOpcode, Bool.or_eq_true, decide_eq_true_eq, not_or] at habsent
        obtain ⟨⟨-, htop⟩, -⟩ := habsent
        exact Nat.not_le.1 htop
      have hop : opField w = 7 ∨ opField w = 8 ∨ opField w = 9 := by bv_omega
      refine .inr (.inr ⟨hn, ?_, operandFault_jump t _ _ _ hjump ▸ h⟩)
      rcases hop with e | e | e
      · exact .inl e
      · exact .inr (.inl ⟨e, by simpa [e] using hjnz⟩)
      · exact .inr (.inr ⟨e, by simpa [e] using hjze⟩)

theorem faultOf_taken_jump {t : State} {w : InstrWord} (hn : nField w ≠ 0) (hjump : TakenJump t (opField w)) :
    faultOf t w = targetFault t (operandA w) := by
  rw [faultOf, if_neg hn]
  rcases hjump with e | ⟨e, hs⟩ | ⟨e, hs⟩
  all_goals
    rw [operandFault_jump t _ _ _ (by rw [e]; decide)]
    simp_all [absentOpcode]

/-- R157: OutOfBoundsJump is named exactly for a taken jump whose target is above `PEND`. -/
theorem faultOf_eq_outOfBounds {t : State} {w : InstrWord} {info : BitVec 9} :
    faultOf t w = some ⟨.outOfBoundsJump, info⟩ ↔
      nField w ≠ 0 ∧ TakenJump t (opField w) ∧
        ∃ x, HasValue t (operandA w) x ∧ t.pend.toNat < x.toNat ∧ info = x.setWidth 9 := by
  rw [← targetFault_eq_outOfBounds]
  constructor
  · intro h
    obtain (hc | hc) | ⟨-, hc | hc⟩ | htarget := faultOf_cases h
    · cases hc
    · cases hc
    · cases hc
    · cases hc
    · exact htarget
  · rintro ⟨hn, hjump, htarget⟩
    rw [faultOf_taken_jump hn hjump, htarget]

/-- R154: with one token an implemented instruction of two operands is short of a token, whatever its operands are. -/
theorem faultOf_one_token {t : State} {i : Instr} (hn : i.count = 1)
    (hop : i.opcode.toNat ≤ 4 ∨ (i.opcode.toNat ≤ 6 ∧ t.hasCgtClt = true)) :
    faultOf t (encode i) = some ⟨.arity, 1⟩ := by
  rw [faultOf_encode, hn]
  cases i
  case jmp | jnz | jze => simp [Instr.opcode] at hop
  case cgt | clt =>
    have hopt : t.hasCgtClt = true := by simpa [Instr.opcode] using hop
    simp [absentOpcode, operandFault, Instr.opcode, hopt]
  all_goals simp [absentOpcode, operandFault, Instr.opcode]

/-- R154: a jump is never short of a token. -/
theorem faultOf_jump_ne_arity {t : State} {w : InstrWord} (hop : 7 ≤ (opField w).toNat) (info : BitVec 9) :
    faultOf t w ≠ some ⟨.arity, info⟩ := by
  intro h
  obtain (hc | hc) | ⟨hlow, -⟩ | ⟨-, -, htarget⟩ := faultOf_cases h
  · cases hc
  · cases hc
  · omega
  · exact targetFault_ne_arity t _ info htarget

/-! ## The code a step leaves -/

theorem code_injective : Function.Injective FaultCause.code := by
  intro c d
  cases c <;> cases d <;> decide

theorem code_ne_zero (c : FaultCause) : c.code ≠ 0 := by
  cases c <;> decide

theorem step_of_faultOf {s t : State} {r : Raise} (h : step s = .next t) (hr : faultOf s s.fetch = some r) :
    t = s.raise r := by
  have hrun : s.Running := (exists_step_next_iff_running s).1 ⟨t, h⟩
  obtain ⟨q, hfault, hstep⟩ | ⟨hfault, -⟩ := step_cases_faultOf hrun
  · cases hfault.symm.trans hr
    cases hstep.symm.trans h
    rfl
  · cases hfault.symm.trans hr

/-- A step leaves the code of a cause only where the list names that cause, and then with its info. -/
theorem faultOf_of_step_code {s t : State} (h : step s = .next t) {c : FaultCause} (hc : t.fcode = c.code) :
    faultOf s s.fetch = some ⟨c, t.finfo⟩ := by
  have hrun : s.Running := (exists_step_next_iff_running s).1 ⟨t, h⟩
  obtain ⟨⟨d, info⟩, hfault, hstep⟩ | ⟨-, e, hstep⟩ := step_cases_faultOf hrun
  · cases hstep.symm.trans h
    obtain rfl : d = c := code_injective hc
    exact hfault
  · cases hstep.symm.trans h
    obtain ⟨hclear, -⟩ := hrun
    exact absurd (by simpa [hclear] using hc.symm) (code_ne_zero c)

/-! ## The obligations -/

/-- Settles O45: a word that decodes raises what the list reads off its fields, and so does a word that does not; a step
that raises nothing commits and leaves the latch. -/
theorem faultsFollowThePriorityList : Obligations.FaultsFollowThePriorityList := by
  unfold Obligations.FaultsFollowThePriorityList
  intro s hrun
  obtain ⟨r, hfault, hstep⟩ | ⟨hfault, e, hstep⟩ := step_cases_faultOf hrun
  · rw [hfault]
    exact ⟨_, hstep, rfl⟩
  · rw [hfault]
    obtain ⟨hclear, -⟩ := hrun
    exact ⟨_, hstep, by simp [hclear], by simp [SameLatch]⟩

/-- Settles O47: with `PEND` 0 Reset latches EmptyProgram, and a faulted state has no step. -/
theorem emptyProgramFaultsAtReset : Obligations.EmptyProgramFaultsAtReset := by
  unfold Obligations.EmptyProgramFaultsAtReset
  intro s hpend
  have hcode : s.applyReset.fcode = 1 := by simp [hpend]
  have hfaulted : s.applyReset.Faulted := fun hclear => absurd (hcode.symm.trans hclear) (by decide)
  exact ⟨hcode, rfl, rfl, applyReset_getReg s, step_ne_next_of_faulted hfaulted⟩

/-- Settles O42: with one token the list names Arity for the two-operand instructions, and for a jump it never does. -/
theorem arityNeedsTwoTokens : Obligations.ArityNeedsTwoTokens := by
  unfold Obligations.ArityNeedsTwoTokens
  constructor
  · intro s i hn hop
    obtain ⟨r, hfault, hexec⟩ | ⟨hfault, -⟩ := exec_cases_faultOf i s
    · cases hfault.symm.trans (faultOf_one_token hn hop)
      exact ⟨_, hexec, rfl⟩
    · cases hfault.symm.trans (faultOf_one_token hn hop)
  · intro s t i hop hs hexec hcode
    have hjump : 7 ≤ (opField (encode i)).toNat := by simpa [encode] using hop
    obtain ⟨⟨c, info⟩, hfault, hraise⟩ | ⟨-, e, hok⟩ := exec_cases_faultOf i s
    · cases hraise.symm.trans hexec
      obtain rfl : c = .arity := code_injective hcode
      exact faultOf_jump_ne_arity hjump info hfault
    · cases hok.symm.trans hexec
      exact hs (by simpa using hcode)

/-- Settles O43: the step leaves code 6 where the list names OutOfBoundsJump, with the target as its info. -/
theorem outOfBoundsJumpIsForTakenJumps : Obligations.OutOfBoundsJumpIsForTakenJumps := by
  unfold Obligations.OutOfBoundsJumpIsForTakenJumps
  intro s t i _ hdec hstep
  obtain ⟨hop, hn, ha, -⟩ := fields_of_decode hdec
  rw [← hop, ← hn, ← ha]
  have hnamed (hcode : t.fcode = 6) := faultOf_eq_outOfBounds.1 (faultOf_of_step_code hstep (c := .outOfBoundsJump) hcode)
  refine ⟨⟨fun hcode => ?_, ?_⟩, fun hcode => ?_⟩
  · obtain ⟨htext, hjump, x, hx, hfar, -⟩ := hnamed hcode
    exact ⟨htext, hjump, x, hx, hfar⟩
  · rintro ⟨htext, hjump, x, hx, hfar⟩
    rw [step_of_faultOf hstep (faultOf_eq_outOfBounds.2 ⟨htext, hjump, x, hx, hfar, rfl⟩)]
    rfl
  · obtain ⟨-, -, x, hx, -, hinfo⟩ := hnamed hcode
    exact ⟨x, hx, hinfo⟩

end Sys2Proof.Machine
end

section
/-! PROOFS. The reset statement (R180): Reset writes everything but the inputs, so what it leaves is a function of them, and
with a program loaded it is a running state at word 0. -/

namespace Sys2Proof.Machine

/-- Reset leaves the inputs (R31). -/
theorem sameInputs_applyReset (t : State) : SameInputs t t.applyReset := sameInputs_of_eq rfl rfl rfl

/-- Of a state's fields Reset reads the inputs alone. -/
theorem applyReset_eq_of_sameInputs {t u : State} (h : SameInputs t u) : u.applyReset = t.applyReset := by
  obtain ⟨hpend, hopt, himem, -⟩ := h
  unfold State.applyReset
  rw [hpend, hopt, himem]

theorem applyReset_fcode_of_pend_ne_zero {t : State} (h : t.pend ≠ 0) : t.applyReset.fcode = 0 :=
  if_neg h

/-- With a program loaded, `pc` is below `PEND` after Reset and no fault is latched. -/
theorem running_applyReset {t : State} (h : t.pend ≠ 0) : t.applyReset.Running := by
  have hpos : 0 < t.pend.toNat := Nat.pos_of_ne_zero fun hzero => h (BitVec.eq_of_toNat_eq hzero)
  exact ⟨applyReset_fcode_of_pend_ne_zero h, by simpa using hpos⟩

@[simp] theorem applyReset_fetch (t : State) : t.applyReset.fetch = t.imem.readWord 0 := rfl

/-- Settles O46: the registers and the latch field by field, and the rest from what Reset reads. -/
theorem resetClearsEverything : Obligations.ResetClearsEverything := by
  unfold Obligations.ResetClearsEverything
  intro s
  refine ⟨applyReset_getReg s, sameInputs_applyReset s, fun hempty => ?_, fun hloaded => ?_,
    fun _ => applyReset_eq_of_sameInputs⟩
  · obtain ⟨hcode, hline, hinfo, -⟩ := emptyProgramFaultsAtReset s hempty
    exact ⟨hcode, hline, hinfo⟩
  · exact ⟨applyReset_fcode_of_pend_ne_zero hloaded, applyReset_fline s, applyReset_finfo s, running_applyReset hloaded,
      applyReset_fetch s⟩

end Sys2Proof.Machine
end

section
/-! PROOFS. The encoding statements: decode and encode undo each other (R61, R63), the opcode map (R63, R68), and the
serialisation of words (R44). -/

namespace Sys2Proof.Machine

/-! ## The word of an instruction and the instruction of a word -/

theorem opField_encode (i : Instr) : opField (encode i) = i.opcode := opField_packWord ..
theorem nField_encode (i : Instr) : nField (encode i) = i.count := nField_packWord ..
theorem operandA_encode (i : Instr) : operandA (encode i) = i.opA := operandA_packWord ..
theorem operandB_encode (i : Instr) : operandB (encode i) = i.opB := operandB_packWord ..

theorem decode_cgt {w : InstrWord} (hop : opField w = 0x5) :
    decode w = .ok (.cgt (nField w) (operandA w) (operandB w)) := by
  simp [decode, hop]

theorem decode_clt {w : InstrWord} (hop : opField w = 0x6) :
    decode w = .ok (.clt (nField w) (operandA w) (operandB w)) := by
  simp [decode, hop]

/-- Settles O4: one decoder equation for each opcode of the map; an instruction read from a reserved opcode would have an
opcode of the map. -/
theorem opcodeAloneSelectsTheInstruction : Obligations.OpcodeAloneSelectsTheInstruction := by
  unfold Obligations.OpcodeAloneSelectsTheInstruction
  refine fun w => ⟨decode_mov, decode_add, decode_sub, decode_cmp, decode_cgt, decode_clt, decode_jmp, decode_jnz, decode_jze,
    fun hop => ?_⟩
  obtain ⟨i, -, hopcode, -⟩ | hreject := decode_cases w
  · obtain ⟨hlow, hhigh⟩ := opcode_mem_map i
    rw [hopcode] at hlow hhigh
    obtain hzero | hten := hop
    · rw [hzero] at hlow
      exact absurd hlow (by decide)
    · omega
  · exact hreject

/-- The opcode map at the encoded word, whose fields are those of the instruction. -/
theorem decode_encode (i : Instr) : decode (encode i) = .ok i := by
  obtain ⟨hmov, hadd, hsub, hcmp, hcgt, hclt, hjmp, hjnz, hjze, -⟩ := opcodeAloneSelectsTheInstruction (encode i)
  simp only [opField_encode, nField_encode, operandA_encode, operandB_encode] at *
  cases i with
  | mov n a b => exact hmov rfl
  | add n a b => exact hadd rfl
  | sub n a b => exact hsub rfl
  | cmp n a b => exact hcmp rfl
  | cgt n a b => exact hcgt rfl
  | clt n a b => exact hclt rfl
  | jmp n a b => exact hjmp rfl
  | jnz n a b => exact hjnz rfl
  | jze n a b => exact hjze rfl

/-- Six fields in the order of R61 are the packed word of the operands they make. -/
theorem append_eq_packWord (op : BitVec 4) (n : BitVec 2) (ma mb : BitVec 1) (a b : Byte) :
    op ++ n ++ ma ++ mb ++ a ++ b = packWord op n (operandOf ma a) (operandOf mb b) := by
  simp only [packWord, operandOf_mode, operandOf_field]

/-- Settles O1: by the case of the instruction, at the opcode map (O4). -/
theorem decodeOfEncodeIsIdentity : Obligations.DecodeOfEncodeIsIdentity := by
  unfold Obligations.DecodeOfEncodeIsIdentity
  exact decode_encode

/-- Settles O2: the instruction's fields are the word's (`fields_of_decode`), and a word is its fields. -/
theorem encodeOfDecodeIsIdentity : Obligations.EncodeOfDecodeIsIdentity := by
  unfold Obligations.EncodeOfDecodeIsIdentity
  intro w i hdec
  obtain ⟨hop, hn, ha, hb⟩ := fields_of_decode hdec
  calc encode i = packWord (opField w) (nField w) (operandA w) (operandB w) := by rw [hop, hn, ha, hb]; rfl
    _ = opField w ++ nField w ++ maField w ++ mbField w ++ aField w ++ bField w := (append_eq_packWord ..).symm
    _ = w := append_fields w

/-- Settles O3: the word is the packed word of the operands its modes and fields make, whose fields read back. -/
theorem fieldsLieAsInF24 : Obligations.FieldsLieAsInF24 := by
  unfold Obligations.FieldsLieAsInF24
  intro op n ma mb a b
  simp only [append_eq_packWord, opField_packWord, nField_packWord, maField_packWord, mbField_packWord, aField_packWord,
    bField_packWord, operandA_packWord, operandB_packWord, operandOf_mode, operandOf_field, true_and]
  refine ⟨?_, ?_, ?_, ?_⟩
  all_goals
    rintro rfl
    rfl

/-- Settles O5: the decoder is run on the fourteen words. -/
theorem workedEncodingsDecode : Obligations.WorkedEncodingsDecode := by
  unfold Obligations.WorkedEncodingsDecode
  decide

theorem decodeBytes_bytesOfWord (w : InstrWord) (i : Instr) (rest : List Byte) (h : decode w = .ok i) :
    decodeBytes (bytesOfWord w ++ rest) = .ok (i, rest) := by
  simp [bytesOfWord, decodeBytes, wordOfBytes_bytes, h]

/-- Settles O6: the three bytes of a word put together are the word, and the encoded word decodes. -/
theorem byteStreamCarriesWords : Obligations.ByteStreamCarriesWords := by
  unfold Obligations.ByteStreamCarriesWords
  exact ⟨by decide, fun i rest => decodeBytes_bytesOfWord _ i rest (decode_encode i)⟩

end Sys2Proof.Machine
end

section
/-! PROOFS. The invariant statements (R28, R36, R150): a raise keeps the invariant because the list of R155 names each cause
with an info that fits it; a commit leaves the latch and the inputs. -/

namespace Sys2Proof.Machine

/-! ## The info of a named fault fits its cause (R150) -/

/-- What the info of a raise is for its cause, in a state that raises it (R150). No step raises EmptyProgram (R151). -/
def Raise.Fits (t : State) (r : Raise) : Prop :=
  match r.cause with
  | .emptyProgram => False
  | .unknownOpcode => ∃ op : BitVec 4, r.info = op.setWidth 9 ∧ absentOpcode t op = true
  | .missingOperand => r.info = 0
  | .arity => r.info = 1
  | .unknownRegister => 5 < r.info.toNat
  | .outOfBoundsJump => t.pend.toNat < r.info.toNat ∧ r.info.toNat ≤ 255

theorem token_reg_toNat (f : Byte) : (Operand.reg f).token.toNat = f.toNat :=
  (BitVec.toNat_append (0 : BitVec 1) f).trans (by simp)

theorem token_imm_toNat (f : Byte) : (Operand.imm f).token.toNat = 256 + f.toNat := by
  have happend : (Operand.imm f).token.toNat = 1 <<< 8 ||| f.toNat := BitVec.toNat_append (1 : BitVec 1) f
  rw [happend, ← Nat.shiftLeft_add_eq_or_of_lt f.isLt]
  rfl

/-- Neither a register field above 5 nor an immediate has the token of a register. -/
theorem token_of_not_writable {o : Operand} (h : o.writable = false) : 5 < o.token.toNat := by
  cases o with
  | imm f => rw [token_imm_toNat]; omega
  | reg f =>
    rw [token_reg_toNat]
    exact Nat.not_lt.1 (of_decide_eq_false h)

theorem token_of_not_readable {o : Operand} (h : o.readable = false) : 5 < o.token.toNat := by
  cases o with
  | imm f => cases h
  | reg f => exact token_of_not_writable h

section
variable {t : State} {r : Raise}

theorem fits_of_firstUnreadable {os : List Operand} (h : firstUnreadable os = some r) : r.Fits t := by
  induction os with
  | nil => cases h
  | cons o os ih =>
    rw [firstUnreadable] at h
    split at h
    next => exact ih h
    next hbad =>
      cases h
      exact token_of_not_readable (Bool.eq_false_of_not_eq_true hbad)

theorem fits_of_badDestination {o : Operand} (h : badDestination o = some r) : r.Fits t := by
  rw [badDestination] at h
  split at h
  next => cases h
  next hbad =>
    cases h
    exact token_of_not_writable (Bool.eq_false_of_not_eq_true hbad)

theorem fits_of_badTarget {o : Operand} (h : badTarget t o = some r) : r.Fits t := by
  rw [badTarget] at h
  split at h
  next hfar =>
    cases h
    have hwidth : ((readableValue t o).setWidth 9).toNat = (readableValue t o).toNat := by
      rw [BitVec.toNat_setWidth]; omega
    simp only [Raise.Fits, hwidth]
    omega
  next => cases h

theorem fits_of_or {x y : Option Raise} (h : x.or y = some r) (hx : x = some r → r.Fits t) (hy : y = some r → r.Fits t) :
    r.Fits t := by
  obtain h | ⟨-, h⟩ := Option.or_eq_some_iff.1 h
  · exact hx h
  · exact hy h

/-- The one count that is below 2 and not 0 is 1. -/
theorem fits_of_operandFault {op : BitVec 4} {n : TokenCount} {a b : Operand} (hn : n ≠ 0)
    (h : operandFault t op n a b = some r) : r.Fits t := by
  unfold operandFault at h
  split_ifs at h with harity
  · cases h
    have hlow : n.toNat < 2 := by simp_all
    obtain rfl : n = 1 := by bv_omega
    rfl
  · exact fits_of_or h fits_of_firstUnreadable fits_of_badDestination
  · exact fits_of_or h fits_of_firstUnreadable fits_of_badDestination
  · exact fits_of_firstUnreadable h
  · exact fits_of_or h fits_of_firstUnreadable fits_of_badTarget

/-- Whatever the list names, it names with an info that fits. -/
theorem fits_of_faultOf {w : InstrWord} (h : faultOf t w = some r) : r.Fits t := by
  unfold faultOf at h
  split_ifs at h with hn habsent
  · cases h
    rfl
  · cases h
    exact ⟨_, rfl, habsent⟩
  · exact fits_of_operandFault hn h

end

/-! ## The invariant over a raise and over a commit -/

/-- The dispatch table depends on the option alone, which no raise changes (R133). -/
theorem absentOpcode_raise (t : State) (r : Raise) (op : BitVec 4) : absentOpcode (t.raise r) op = absentOpcode t op := rfl

theorem infoFits_raise {t : State} {r : Raise} (h : r.Fits t) : infoFits (t.raise r) := by
  obtain ⟨cause, info⟩ := r
  cases cause
  case emptyProgram => exact h.elim
  all_goals simpa [infoFits, Raise.Fits, absentOpcode_raise, FaultCause.code] using h

theorem infoFits_of_emptyProgram {t : State} (h : t.fcode = 1) : infoFits t := by
  simp [infoFits, h]

theorem code_le (c : FaultCause) : c.code.toNat ≤ 6 := by
  cases c <;> decide

theorem pend_ne_zero_of_running {t : State} (h : t.Running) : t.pend ≠ 0 := by
  obtain ⟨-, hlt⟩ := h
  intro hzero
  rw [hzero] at hlt
  exact absurd hlt (Nat.not_lt_zero _)

/-- A raise in a running state latches `pc`, which is below `PEND`, and a code that is not EmptyProgram's. -/
theorem inv_raise {t : State} {r : Raise} (hrun : t.Running) (hfit : r.Fits t) (hwf : t.imem.wf = true) :
    (t.raise r).Inv := by
  have hcause : r.cause ≠ .emptyProgram := fun hc => by simp [Raise.Fits, hc] at hfit
  have hcode : (t.raise r).fcode ≠ 1 := fun hc => hcause (code_injective hc)
  obtain ⟨-, hlt⟩ := id hrun
  exact ⟨code_le r.cause, fun hzero => absurd hzero (code_ne_zero r.cause), fun _ => rfl, fun _ _ => hlt,
    fun hc => absurd hc hcode, iff_of_false (pend_ne_zero_of_running (t := t) hrun) hcode, infoFits_raise hfit, hwf⟩

/-- With `FCODE` 0 the invariant says nothing of a register. -/
theorem inv_of_clear {t : State} (hcode : t.fcode = 0) (hlatch : t.fline = 0 ∧ t.finfo = 0) (hpend : t.pend ≠ 0)
    (hwf : t.imem.wf = true) : t.Inv := by
  refine ⟨by simp [hcode], fun _ => hlatch, fun h => absurd hcode h, fun h => absurd hcode h, fun _ => hlatch,
    iff_of_false hpend (by simp [hcode]), by simp [infoFits, hcode], hwf⟩

theorem inv_commit_updatePc {t : State} (hinv : t.Inv) (hrun : t.Running) (e : Effect) :
    ((t.commit e.writes).updatePc e.target).Inv := by
  obtain ⟨-, hclear, -, -, -, -, -, hwf⟩ := hinv
  obtain ⟨hcode, -⟩ := id hrun
  exact inv_of_clear (by simpa using hcode) (by simpa using hclear hcode) (by simpa using pend_ne_zero_of_running hrun)
    (by simpa using hwf)

/-- Settles O50: a step raises the fault the list names, with an info that fits, or commits an effect. -/
theorem everyStepKeepsTheInvariant : Obligations.EveryStepKeepsTheInvariant := by
  unfold Obligations.EveryStepKeepsTheInvariant
  intro s t hinv hstep
  have hrun : s.Running := (exists_step_next_iff_running s).1 ⟨t, hstep⟩
  obtain ⟨r, hfault, hraise⟩ | ⟨-, e, hok⟩ := step_cases_faultOf hrun
  · cases hraise.symm.trans hstep
    obtain ⟨-, -, -, -, -, -, -, hwf⟩ := hinv
    exact inv_raise hrun (fits_of_faultOf hfault) hwf
  · cases hok.symm.trans hstep
    exact inv_commit_updatePc hinv hrun e

/-! ## The invariant after Reset -/

/-- Reset latches EmptyProgram exactly where `PEND` is 0 (R181). -/
theorem inv_applyReset {t : State} (hwf : t.imem.wf = true) : t.applyReset.Inv := by
  by_cases hpend : t.pend = 0
  · have hcode : t.applyReset.fcode = 1 := by simp [hpend]
    exact ⟨by rw [hcode]; decide, fun _ => ⟨rfl, rfl⟩, fun _ => rfl, fun _ h => absurd hcode h, fun _ => ⟨rfl, rfl⟩,
      iff_of_true hpend hcode, infoFits_of_emptyProgram hcode, hwf⟩
  · exact inv_of_clear (applyReset_fcode_of_pend_ne_zero hpend) ⟨rfl, rfl⟩ hpend hwf

/-- Settles O49: `State.reset` is its own Reset, and its memory is canonical. -/
theorem resetMeetsTheInvariant : Obligations.ResetMeetsTheInvariant := by
  unfold Obligations.ResetMeetsTheInvariant
  exact ⟨inv_applyReset reset_imem_wf, fun _ => inv_applyReset⟩

end Sys2Proof.Machine
end

section
/-! PROOFS. The host's load (R185) and the placing of one word (log entry 3): what is stored reads back, and what is placed
runs. -/

namespace Sys2Proof.Machine

/-! ## The load -/

theorem readWord_loadFrom (m : Memory) (i : Nat) (ws : List InstrWord) (hm : m.wf = true)
    (hi : i + ws.length ≤ Config.imemWords) (j : Nat) (hj : j < ws.length) :
    (m.loadFrom i ws).readWord (i + j) = ws[j] := by
  induction ws generalizing m i j with
  | nil => exact absurd hj (Nat.not_lt_zero j)
  | cons w ws ih =>
    rw [List.length_cons] at hi hj
    have hm' : (m.writeWord i w).wf = true := writeWord_wf m i w hm (by omega)
    cases j with
    | zero =>
      calc ((m.writeWord i w).loadFrom (i + 1) ws).readWord i
        _ = (m.writeWord i w).readWord i := readWord_loadFrom_lt _ _ _ _ hm' (by omega) (by omega)
        _ = w := by rw [readWord_writeWord m i i w hm (by omega), if_pos rfl]
    | succ j =>
      have hindex : i + (j + 1) = i + 1 + j := by omega
      rw [hindex]
      exact ih _ (i + 1) hm' (by omega) j (by omega)

/-- What the host protocol leaves of a program it takes: the words, their number, the option, and Reset (R185). -/
def loadedState (ws : List InstrWord) (opt : Bool) : State :=
  { State.reset with
    pend := BitVec.ofNat 8 ws.length
    imem := Memory.loadFrom [] 0 ws
    hasCgtClt := opt }.applyReset

section
variable {ws : List InstrWord}

theorem loadProgram_eq (opt : Bool) (h : ws.length ≤ 255) : loadProgram ws opt = some (loadedState ws opt) :=
  if_pos h

theorem loadedState_pend_toNat (opt : Bool) (h : ws.length ≤ 255) : (loadedState ws opt).pend.toNat = ws.length := by
  simp only [loadedState, applyReset_pend, BitVec.toNat_ofNat]
  omega

theorem loadedState_imem_wf (opt : Bool) (h : ws.length ≤ 255) : (loadedState ws opt).imem.wf = true :=
  loadFrom_wf [] 0 ws rfl (by simp only [Config.imemWords]; omega)

theorem loadedState_readWord (opt : Bool) (h : ws.length ≤ 255) (i : Nat) (hi : i < ws.length) :
    (loadedState ws opt).imem.readWord i = ws[i] := by
  have hread := readWord_loadFrom [] 0 ws rfl (by simp only [Config.imemWords]; omega) i hi
  rwa [Nat.zero_add] at hread

theorem loadedState_pend_eq_zero (opt : Bool) (h : ws.length ≤ 255) : (loadedState ws opt).pend = 0 ↔ ws = [] := by
  rw [← List.length_eq_zero_iff, ← loadedState_pend_toNat opt h]
  exact ⟨fun hz => hz ▸ rfl, fun hz => BitVec.eq_of_toNat_eq hz⟩

end

/-- Settles O51: the load is the words stored at their indices and then Reset, which runs unless `PEND` is 0. -/
theorem loadedProgramReadsBack : Obligations.LoadedProgramReadsBack := by
  unfold Obligations.LoadedProgramReadsBack
  intro ws opt hlen
  refine ⟨loadedState ws opt, loadProgram_eq opt hlen, loadedState_pend_toNat opt hlen, rfl, loadedState_imem_wf opt hlen,
    loadedState_readWord opt hlen, applyReset_getReg _, fun hne => ?_, fun hnil => ?_⟩
  · exact running_applyReset (t := loadedState ws opt) fun hzero => hne ((loadedState_pend_eq_zero opt hlen).1 hzero)
  · exact (emptyProgramFaultsAtReset (loadedState ws opt) ((loadedState_pend_eq_zero opt hlen).2 hnil)).1

/-! ## The placing of one word -/

/-- A `pc` of 255 is moved, so the place is an index some `PEND` is above (R23). -/
theorem placeWord_pc_lt (t : State) (w : InstrWord) : (t.placeWord w).pc.toNat < 255 := by
  rw [placeWord_pc]
  split <;> bv_omega

theorem placeWord_pend (t : State) (w : InstrWord) :
    (t.placeWord w).pend = if (t.placeWord w).pc < t.pend then t.pend else (t.placeWord w).pc + 1 := rfl

theorem running_placeWord (t : State) (w : InstrWord) : (t.placeWord w).Running := by
  refine ⟨placeWord_fcode t w, ?_⟩
  have hpc := placeWord_pc_lt t w
  rw [placeWord_pend]
  split
  next hlt => exact hlt
  next => bv_omega

theorem placeWord_imem_wf {t : State} (w : InstrWord) (hwf : t.imem.wf = true) : (t.placeWord w).imem.wf = true :=
  writeWord_wf t.imem _ w hwf (BitVec.isLt _)

theorem placeWord_fetch {t : State} (w : InstrWord) (hwf : t.imem.wf = true) : (t.placeWord w).fetch = w :=
  (readWord_writeWord t.imem _ _ w hwf (BitVec.isLt _)).trans (if_pos rfl)

/-- The 24 bits of a word, as a number, are the word. -/
theorem tableWord_toNat (w : InstrWord) : tableWord 24 w.toNat = w := by
  simp [tableWord, Nat.mod_eq_of_lt w.isLt]

/-- Settles O52: the placed word is the one at `pc`, the state runs, and the encoded word decodes. -/
theorem placedWordRunsNext : Obligations.PlacedWordRunsNext := by
  unfold Obligations.PlacedWordRunsNext
  intro s i hwf
  simp only [State.withFetchWord, tableWord_toNat]
  have hrun := running_placeWord s (encode i)
  have hdec : decode (s.placeWord (encode i)).fetch = .ok i := by rw [placeWord_fetch _ hwf, decode_encode]
  exact ⟨hrun, step_of_running_ok ((running_iff _).1 hrun) hdec, placeWord_imem_wf _ hwf⟩

end Sys2Proof.Machine
end

section
/-! PROOFS. The assembly statements (R76 to R83): the assembler line by line, its immediates, and that it reads back what the
disassembler prints of a canonical instruction. -/

namespace Sys2Proof.Machine

/-! ## The lines of a program (R76, R81) -/

/-- A list of lines that assembles gives one word a line, in order. -/
theorem forall₂_of_assembleLines_ok {i : Nat} {ls : List (List Char)} {ws : List InstrWord}
    (h : assembleLines i ls = .ok ws) : List.Forall₂ (fun l w => assembleLine l = .ok w) ls ws := by
  induction ls generalizing i ws with
  | nil =>
    cases h
    exact .nil
  | cons l ls ih =>
    obtain ⟨-, herr⟩ | ⟨-, p, -, herr⟩ | ⟨-, w, hw, ⟨r, -, herr⟩ | ⟨ws', hws, hok⟩⟩ := assembleLines_cons i l ls
    · cases herr.symm.trans h
    · cases herr.symm.trans h
    · cases herr.symm.trans h
    · cases hok.symm.trans h
      exact .cons hw (ih hws)

/-- No line that assembles has index 255 or more. -/
theorem length_of_assembleLines_ok {i : Nat} {ls : List (List Char)} {ws : List InstrWord} (hi : i ≤ 255)
    (h : assembleLines i ls = .ok ws) : i + ls.length ≤ 255 := by
  induction ls generalizing i ws with
  | nil => exact hi
  | cons l ls ih =>
    obtain ⟨-, herr⟩ | ⟨-, p, -, herr⟩ | ⟨hlt, w, -, ⟨r, -, herr⟩ | ⟨ws', hws, -⟩⟩ := assembleLines_cons i l ls
    · cases herr.symm.trans h
    · cases herr.symm.trans h
    · cases herr.symm.trans h
    · have hrest := ih (by omega) hws
      rw [List.length_cons]
      omega

/-- Every line of a list assembles, as far as this says. -/
def AllAssemble (ls : List (List Char)) : Prop := ∀ l ∈ ls, ∃ w, assembleLine l = .ok w

/-- The refusal `r` of a line at index `i`: for its index alone, or for what the line is. -/
def RefusesLine (r : AsmRefusal) (l : List Char) : Prop :=
  (r.index = 255 ∧ r.problem = .tooManyLines) ∨ (r.index < 255 ∧ assembleLine l = .error r.problem)

/-- A refusal names the first line that is refused: the lines before it assemble. -/
theorem split_of_assembleLines_error {i : Nat} {ls : List (List Char)} {r : AsmRefusal} (hi : i ≤ 255)
    (h : assembleLines i ls = .error r) :
    ∃ before l after, ls = before ++ l :: after ∧ r.index = i + before.length ∧ AllAssemble before ∧ RefusesLine r l := by
  induction ls generalizing i with
  | nil => cases h
  | cons l ls ih =>
    obtain ⟨hge, herr⟩ | ⟨hlt, p, hp, herr⟩ | ⟨hlt, w, hw, ⟨r', hr', herr⟩ | ⟨ws', -, hok⟩⟩ := assembleLines_cons i l ls
    · cases herr.symm.trans h
      exact ⟨[], l, ls, rfl, rfl, nofun, .inl ⟨by dsimp only; omega, rfl⟩⟩
    · cases herr.symm.trans h
      exact ⟨[], l, ls, rfl, rfl, nofun, .inr ⟨hlt, hp⟩⟩
    · cases herr.symm.trans h
      obtain ⟨before, l', after, rfl, hindex, hbefore, hrefuses⟩ := ih (by omega) hr'
      refine ⟨l :: before, l', after, rfl, ?_, List.forall_mem_cons.2 ⟨⟨w, hw⟩, hbefore⟩, hrefuses⟩
      rw [hindex, List.length_cons]
      omega
    · cases hok.symm.trans h

/-- Settles O57: words are given line by line and fit a load; a refusal splits the lines at the one it names. -/
theorem assemblyGivesWordsOrNamesALine : Obligations.AssemblyGivesWordsOrNamesALine := by
  unfold Obligations.AssemblyGivesWordsOrNamesALine
  intro text
  cases h : assemble text with
  | ok ws =>
    have hlines := forall₂_of_assembleLines_ok h
    have hlen : ws.length ≤ 255 := by
      have hle := length_of_assembleLines_ok (Nat.zero_le 255) h
      rw [← hlines.length_eq]
      omega
    refine ⟨hlines.length_eq.symm, hlen, fun i l hl => ?_, fun opt => ?_⟩
    · obtain ⟨hi, rfl⟩ := List.getElem?_eq_some_iff.1 hl
      have hi' : i < ws.length := hlines.length_eq ▸ hi
      exact ⟨ws[i], List.getElem?_eq_getElem hi', hlines.get hi hi'⟩
    · exact ⟨loadedState ws opt, by rw [bootText, h]; exact loadProgram_eq opt hlen, loadedState_pend_toNat opt hlen⟩
  | error r =>
    obtain ⟨before, l, after, hsplit, hindex, hbefore, hrefuses⟩ := split_of_assembleLines_error (Nat.zero_le 255) h
    rw [Nat.zero_add] at hindex
    dsimp only
    rw [hsplit, hindex]
    refine ⟨fun j l' hj hl' => ?_, l, by simp, hindex ▸ hrefuses⟩
    rw [List.getElem?_append_left hj] at hl'
    exact hbefore l' (List.mem_of_getElem? hl')

/-! ## Immediates (R79, R81) -/

theorem isDigitChar_iff (c : Char) : isDigitChar c = true ↔ 48 ≤ c.toNat ∧ c.toNat ≤ 57 := by
  simp [isDigitChar]

theorem decimalValue_eq_some {ds : List Char} {v : Nat} :
    decimalValue ds = some v ↔
      ds ≠ [] ∧ (∀ c ∈ ds, isDigitChar c = true) ∧ ds.foldl (fun acc c => 10 * acc + (c.toNat - 48)) 0 = v := by
  simp [decimalValue, and_assoc]

theorem assembleToken_immediate {ds : List Char} {o : Operand} :
    assembleToken ('#' :: ds) = .ok o ↔ ∃ v, decimalValue ds = some v ∧ v ≤ 255 ∧ o = .imm (BitVec.ofNat 8 v) := by
  cases h : decimalValue ds with
  | none => simp [assembleToken, h]
  | some v =>
    by_cases hv : v ≤ 255
    · simp [assembleToken, h, hv, eq_comm]
    · simp [assembleToken, h, hv]

/-- Settles O56: an immediate is taken where its text has a decimal value, and that is at most 255. -/
theorem immediatesAreDecimalBytes : Obligations.ImmediatesAreDecimalBytes := by
  unfold Obligations.ImmediatesAreDecimalBytes
  intro ds o
  rw [assembleToken_immediate]
  simp only [decimalValue_eq_some, isDigitChar_iff]
  constructor
  · rintro ⟨v, ⟨hne, hdigits, rfl⟩, hle, ho⟩
    exact ⟨hne, hdigits, hle, ho⟩
  · rintro ⟨hne, hdigits, hle, ho⟩
    exact ⟨_, ⟨hne, hdigits, rfl⟩, hle, ho⟩

/-! ## What an operand prints as, assembles back (R79, R83) -/

theorem digitChar_toNat {d : Nat} (hd : d < 10) : (digitChar d).toNat = 48 + d := by
  interval_cases d <;> rfl

theorem isDigitChar_digitChar {d : Nat} (hd : d < 10) : isDigitChar (digitChar d) = true := by
  rw [isDigitChar_iff, digitChar_toNat hd]
  omega

theorem decimalValue_decimalText (v : Byte) : decimalValue (decimalText v) = some v.toNat := by
  have hv : v.toNat < 256 := v.isLt
  have hones : v.toNat % 10 < 10 := Nat.mod_lt _ (by decide)
  have htens : v.toNat / 10 % 10 < 10 := Nat.mod_lt _ (by decide)
  have hhundreds : v.toNat / 100 < 10 := by omega
  rw [decimalValue_eq_some, decimalText]
  split_ifs with h10 h100
  · simp [isDigitChar_digitChar, digitChar_toNat, h10]
  · have htens' : v.toNat / 10 < 10 := by omega
    simp [isDigitChar_digitChar, digitChar_toNat, hones, htens']
    omega
  · simp [isDigitChar_digitChar, digitChar_toNat, hones, htens, hhundreds]
    omega

theorem decimalText_digits (v : Byte) : ∀ c ∈ decimalText v, isDigitChar c = true := by
  obtain ⟨-, hdigits, -⟩ := decimalValue_eq_some.1 (decimalValue_decimalText v)
  exact hdigits

theorem operandText_number (r : Reg) : operandText (.reg r.number) = regName r := by
  simp [operandText]

theorem assembleToken_regName (r : Reg) : assembleToken (regName r) = .ok (.reg r.number) := by
  cases r <;> rfl

/-- An operand that can be read is an immediate or a register (R65). -/
theorem imm_or_number_of_readable {o : Operand} (h : o.readable = true) : (∃ v, o = .imm v) ∨ ∃ r : Reg, o = .reg r.number := by
  cases o with
  | imm v => exact .inl ⟨v, rfl⟩
  | reg f =>
    obtain ⟨r, rfl⟩ := exists_number_eq_of_le (Nat.le_of_lt_succ (of_decide_eq_true h))
    exact .inr ⟨r, rfl⟩

theorem assembleToken_operandText {o : Operand} (h : o.readable = true) : assembleToken (operandText o) = .ok o := by
  obtain ⟨v, rfl⟩ | ⟨r, rfl⟩ := imm_or_number_of_readable h
  · exact assembleToken_immediate.2 ⟨v.toNat, decimalValue_decimalText v, by omega, by simp⟩
  · rw [operandText_number, assembleToken_regName]

/-! ## The characters of a printed line -/

/-- A character the assembler takes inside a line: in ASCII, no white space, not the end of a line. -/
def isTextChar (c : Char) : Bool := c.toNat ≤ 127 && !isBlankChar c && c != '\n'

theorem isTextChar_iff (c : Char) : isTextChar c = true ↔ c.toNat ≤ 127 ∧ isBlankChar c = false ∧ c ≠ '\n' := by
  simp [isTextChar, and_assoc]

theorem not_blank_of_isTextChar {c : Char} (h : isTextChar c = true) : isBlankChar c = false := by
  obtain ⟨-, hblank, -⟩ := (isTextChar_iff c).1 h
  exact hblank

theorem isTextChar_of_digit {c : Char} (h : isDigitChar c = true) : isTextChar c = true := by
  rw [isDigitChar_iff] at h
  have hne {d : Char} (hd : d.toNat < 48) : c ≠ d := by
    rintro rfl
    omega
  simp only [isTextChar_iff, isBlankChar, Bool.or_eq_false_iff, beq_eq_false_iff_ne]
  exact ⟨by omega, ⟨⟨⟨⟨hne (by decide), hne (by decide)⟩, by omega⟩, by omega⟩, by omega⟩, hne (by decide)⟩

theorem regName_chars (r : Reg) : ∀ c ∈ regName r, isTextChar c = true ∧ c ≠ ',' := by
  cases r <;> simp [regName, isTextChar, isBlankChar]

/-- A printed operand is one token: text without a comma. -/
theorem operandText_chars {o : Operand} (h : o.readable = true) :
    ∀ c ∈ operandText o, isTextChar c = true ∧ c ≠ ',' := by
  obtain ⟨v, rfl⟩ | ⟨r, rfl⟩ := imm_or_number_of_readable h
  · refine List.forall_mem_cons.2 ⟨by decide, fun c hc => ?_⟩
    have hdigit := decimalText_digits v c hc
    refine ⟨isTextChar_of_digit hdigit, ?_⟩
    rintro rfl
    exact absurd hdigit (by decide)
  · rw [operandText_number]
    exact regName_chars r

theorem operandText_ne_nil {o : Operand} (h : o.readable = true) : operandText o ≠ [] := by
  obtain ⟨v, rfl⟩ | ⟨r, rfl⟩ := imm_or_number_of_readable h
  · exact List.cons_ne_nil _ _
  · rw [operandText_number]
    cases r <;> exact List.cons_ne_nil _ _

theorem mnemonicText_chars (i : Instr) : ∀ c ∈ mnemonicText i, isTextChar c = true := by
  cases i <;> simp [mnemonicText, isTextChar, isBlankChar]

theorem mnemonicText_ne_nil (i : Instr) : mnemonicText i ≠ [] := by
  cases i <;> exact List.cons_ne_nil _ _

theorem opcodeOfMnemonic_mnemonicText (i : Instr) : opcodeOfMnemonic (mnemonicText i) = i.opcode := by
  cases i <;> rfl

/-! ## Pieces of a text and the ends of a line -/

theorem splitAtChar_ne_nil (c : Char) (l : List Char) : splitAtChar c l ≠ [] := by
  cases l with
  | nil => exact List.cons_ne_nil _ _
  | cons x xs =>
    rw [splitAtChar]
    split
    · exact List.cons_ne_nil _ _
    · split <;> exact List.cons_ne_nil _ _

/-- A character other than the separator goes to the first piece. -/
theorem splitAtChar_cons_ne {c x : Char} {xs p : List Char} {ps : List (List Char)} (hx : x ≠ c)
    (h : splitAtChar c xs = p :: ps) : splitAtChar c (x :: xs) = (x :: p) :: ps := by
  simp [splitAtChar, h, hx]

theorem splitAtChar_cons_self (c : Char) (xs : List Char) : splitAtChar c (c :: xs) = [] :: splitAtChar c xs := by
  obtain ⟨p, ps, h⟩ := List.exists_cons_of_ne_nil (splitAtChar_ne_nil c xs)
  simp [splitAtChar, h]

theorem splitAtChar_of_notMem {c : Char} {l : List Char} (h : ∀ x ∈ l, x ≠ c) : splitAtChar c l = [l] := by
  induction l with
  | nil => rfl
  | cons x xs ih =>
    obtain ⟨hx, hxs⟩ := List.forall_mem_cons.1 h
    exact splitAtChar_cons_ne hx (ih hxs)

theorem splitAtChar_append {c : Char} {l : List Char} (rest : List Char) (h : ∀ x ∈ l, x ≠ c) :
    splitAtChar c (l ++ c :: rest) = l :: splitAtChar c rest := by
  induction l with
  | nil => exact splitAtChar_cons_self c rest
  | cons x xs ih =>
    obtain ⟨hx, hxs⟩ := List.forall_mem_cons.1 h
    exact splitAtChar_cons_ne hx (ih hxs)

/-- A line whose ends are no white space is already trimmed (R76). -/
theorem trimLine_eq_self {l : List Char} (hhead : ∀ h : l ≠ [], isBlankChar (l.head h) = false)
    (hlast : ∀ h : l ≠ [], isBlankChar (l.getLast h) = false) : trimLine l = l := by
  have hleft : l.dropWhile isBlankChar = l := by
    cases l with
    | nil => rfl
    | cons x xs => exact List.dropWhile_cons_of_neg (by simpa using hhead (List.cons_ne_nil x xs))
  have hright : l.rdropWhile isBlankChar = l := List.rdropWhile_eq_self_iff.2 fun h => by simp [hlast h]
  rw [trimLine, hleft]
  exact hright

theorem trimLine_of_text {l : List Char} (h : ∀ c ∈ l, isTextChar c = true) : trimLine l = l :=
  trimLine_eq_self (fun hl => not_blank_of_isTextChar (h _ (List.head_mem hl)))
    fun hl => not_blank_of_isTextChar (h _ (List.getLast_mem hl))

/-! ## A line of mnemonic and operand text -/

section
variable {m r : List Char} (hm : ∀ c ∈ m, isTextChar c = true) (hr : ∀ c ∈ r, isTextChar c = true)

include hm hr in
/-- Mnemonic and operand text around the space that parts them. -/
theorem trimLine_parts (hm0 : m ≠ []) (hr0 : r ≠ []) : trimLine (m ++ ' ' :: r) = m ++ ' ' :: r := by
  apply trimLine_eq_self
  · intro h
    rw [List.head_append_of_ne_nil hm0]
    exact not_blank_of_isTextChar (hm _ (List.head_mem hm0))
  · intro h
    have hlast : (m ++ ' ' :: r).getLast h = r.getLast hr0 := by simp [List.getLast_cons hr0]
    rw [hlast]
    exact not_blank_of_isTextChar (hr _ (List.getLast_mem hr0))

include hm in
theorem mnemonic_has_no_space : ∀ c ∈ m, decide (c ≠ ' ') = true := by
  rintro c hc
  refine decide_eq_true ?_
  rintro rfl
  exact absurd (hm _ hc) (by decide)

include hm in
theorem mnemonicPart_eq (r : List Char) : mnemonicPart (m ++ ' ' :: r) = m := by
  rw [mnemonicPart, List.takeWhile_append_of_pos (mnemonic_has_no_space hm)]
  simp

include hm in
theorem operandPart_eq (r : List Char) : operandPart (m ++ ' ' :: r) = r := by
  rw [operandPart, List.dropWhile_append_of_pos (mnemonic_has_no_space hm)]
  simp

theorem any_isBlankChar_of_text {l : List Char} (hl : ∀ c ∈ l, isTextChar c = true) : l.any isBlankChar = false := by
  rw [List.any_eq_false]
  exact fun c hc => by simp [not_blank_of_isTextChar (hl c hc)]

include hm hr in
theorem parts_are_ascii : ((m ++ ' ' :: r).any fun c => decide (127 < c.toNat)) = false := by
  have hle {c : Char} (h : isTextChar c = true) : ¬127 < c.toNat := by
    obtain ⟨hascii, -, -⟩ := (isTextChar_iff c).1 h
    omega
  rw [List.any_eq_false]
  intro c hc
  rw [List.mem_append, List.mem_cons] at hc
  obtain hc | rfl | hc := hc
  · simpa using hle (hm c hc)
  · decide
  · simpa using hle (hr c hc)

include hm hr in
/-- None of the refusals of R81 that read the line's characters applies. -/
theorem assembleLine_parts {a b : Operand} (hr0 : r ≠ []) (htokens : assembleTokens (splitAtChar ',' r) = .ok (a, b)) :
    assembleLine (m ++ ' ' :: r) =
      .ok (packWord (opcodeOfMnemonic m) (BitVec.ofNat 2 (min (splitAtChar ',' r).length 3)) a b) := by
  simp only [assembleLine, parts_are_ascii hm hr, mnemonicPart_eq hm, operandPart_eq hm, any_isBlankChar_of_text hm,
    any_isBlankChar_of_text hr, trimLine_of_text hr, hr0, htokens]
  rfl

end

/-! ## A canonical instruction's line (R70, R83) -/

/-- The operand text the disassembler prints: operand B for the six two-operand mnemonics only. -/
def operandsText (i : Instr) : List Char :=
  operandText i.opA ++ (if i.minTokens = 2 then ',' :: operandText i.opB else [])

theorem instrText_eq (i : Instr) : instrText i = mnemonicText i ++ ' ' :: operandsText i := by
  simp [instrText, operandsText]

theorem readable_of_writable {o : Operand} (h : o.writable = true) : o.readable = true := by
  cases o with
  | imm v => rfl
  | reg f => exact h

/-- R70 in the fields of the instruction: the tokens it needs, and each operand one of them, or blank. -/
theorem canonical_fields {i : Instr} (h : i.wf = true) :
    i.count = i.minTokens ∧ i.opA.readable = true ∧
      ((i.minTokens = 2 ∧ i.opB.readable = true) ∨ (i.minTokens = 1 ∧ i.opB = .blank)) := by
  cases i
  all_goals
    simp only [Instr.wf, wfCompare, wfJump, Bool.and_eq_true, beq_iff_eq] at h
    obtain ⟨⟨rfl, ha⟩, hb⟩ := h
  case mov => exact ⟨rfl, readable_of_writable ha, .inl ⟨rfl, hb⟩⟩
  case add | sub => exact ⟨rfl, ha, .inl ⟨rfl, readable_of_writable hb⟩⟩
  case cmp | cgt | clt => exact ⟨rfl, ha, .inl ⟨rfl, hb⟩⟩
  case jmp | jnz | jze => exact ⟨rfl, ha, .inr ⟨rfl, hb⟩⟩

theorem splitAtChar_operandText {o : Operand} (h : o.readable = true) : splitAtChar ',' (operandText o) = [operandText o] :=
  splitAtChar_of_notMem fun c hc => (operandText_chars h c hc).2

theorem splitAtChar_two_operands {a b : Operand} (ha : a.readable = true) (hb : b.readable = true) :
    splitAtChar ',' (operandText a ++ ',' :: operandText b) = [operandText a, operandText b] := by
  rw [splitAtChar_append _ fun c hc => (operandText_chars ha c hc).2, splitAtChar_operandText hb]

/-- The tokens of the printed operands are as many as the instruction needs, and assemble to its operands. -/
theorem assembleTokens_operandsText {i : Instr} (h : i.wf = true) :
    assembleTokens (splitAtChar ',' (operandsText i)) = .ok (i.opA, i.opB) ∧
      BitVec.ofNat 2 (min (splitAtChar ',' (operandsText i)).length 3) = i.count := by
  obtain ⟨hn, ha, ⟨htwo, hb⟩ | ⟨hone, hb⟩⟩ := canonical_fields h
  · simp only [operandsText, hn, htwo, if_true, splitAtChar_two_operands ha hb, assembleTokens, assembleToken_operandText ha,
      assembleToken_operandText hb]
    exact ⟨rfl, rfl⟩
  · have htwo : (1 : TokenCount) ≠ 2 := by decide
    simp only [operandsText, hn, hone, hb, if_neg htwo, List.append_nil, splitAtChar_operandText ha, assembleTokens,
      assembleToken_operandText ha]
    exact ⟨rfl, rfl⟩

theorem operandsText_chars {i : Instr} (h : i.wf = true) : ∀ c ∈ operandsText i, isTextChar c = true := by
  obtain ⟨-, ha, hrest⟩ := canonical_fields h
  intro c hc
  rw [operandsText, List.mem_append] at hc
  obtain hc | hc := hc
  · exact (operandText_chars ha c hc).1
  · obtain ⟨htwo, hb⟩ | ⟨hone, -⟩ := hrest
    · rw [if_pos htwo, List.mem_cons] at hc
      obtain rfl | hc := hc
      · decide
      · exact (operandText_chars hb c hc).1
    · simp [hone] at hc

theorem operandsText_ne_nil {i : Instr} (h : i.wf = true) : operandsText i ≠ [] := by
  obtain ⟨-, ha, -⟩ := canonical_fields h
  exact List.append_ne_nil_of_left_ne_nil (operandText_ne_nil ha) _

theorem assembleLine_instrText {i : Instr} (h : i.wf = true) : assembleLine (instrText i) = .ok (encode i) := by
  obtain ⟨htokens, hcount⟩ := assembleTokens_operandsText h
  rw [instrText_eq, assembleLine_parts (mnemonicText_chars i) (operandsText_chars h) (operandsText_ne_nil h) htokens, hcount,
    opcodeOfMnemonic_mnemonicText]
  rfl

theorem disassemble_encode {i : Instr} (h : i.wf = true) : disassemble (encode i) = instrText i := by
  obtain ⟨hn, -, -⟩ := canonical_fields h
  simp only [disassemble, decode_encode, if_pos hn]

/-- Settles O54: the mnemonic assembles to the opcode, and each operand text to its operand. -/
theorem printedLinesAssembleBack : Obligations.PrintedLinesAssembleBack := by
  unfold Obligations.PrintedLinesAssembleBack
  intro i hwf
  rw [disassemble_encode hwf, assembleLine_instrText hwf]

/-! ## A program of canonical instructions (R76) -/

/-- A trimmed line that is not blank, ended by a newline, is the first line of the program. -/
theorem programLines_line {l : List Char} (text : List Char) (hl : ∀ c ∈ l, c ≠ '\n') (htrim : trimLine l = l) (hne : l ≠ []) :
    programLines (l ++ '\n' :: text) = l :: programLines text := by
  simp [programLines, splitAtChar_append text hl, htrim, hne]

theorem instrText_has_no_newline {i : Instr} (h : i.wf = true) : ∀ c ∈ instrText i, c ≠ '\n' := by
  have hline {c : Char} (hc : isTextChar c = true) : c ≠ '\n' := by
    obtain ⟨-, -, hc⟩ := (isTextChar_iff c).1 hc
    exact hc
  intro c hc
  rw [instrText_eq, List.mem_append, List.mem_cons] at hc
  obtain hc | rfl | hc := hc
  · exact hline (mnemonicText_chars i c hc)
  · decide
  · exact hline (operandsText_chars h c hc)

theorem trimLine_instrText {i : Instr} (h : i.wf = true) : trimLine (instrText i) = instrText i := by
  rw [instrText_eq]
  exact trimLine_parts (mnemonicText_chars i) (operandsText_chars h) (mnemonicText_ne_nil i) (operandsText_ne_nil h)

theorem instrText_ne_nil (i : Instr) : instrText i ≠ [] := by
  rw [instrText_eq]
  exact List.append_ne_nil_of_left_ne_nil (mnemonicText_ne_nil i) _

theorem programLines_printed {is : List Instr} (h : ∀ i ∈ is, i.wf = true) :
    programLines (is.flatMap fun i => disassemble (encode i) ++ ['\n']) = is.map instrText := by
  induction is with
  | nil => rfl
  | cons i is ih =>
    obtain ⟨hi, his⟩ := List.forall_mem_cons.1 h
    rw [List.flatMap_cons, disassemble_encode hi, List.append_assoc, List.map_cons, ← ih his]
    exact programLines_line _ (instrText_has_no_newline hi) (trimLine_instrText hi) (instrText_ne_nil i)

theorem assembleLines_printed {is : List Instr} (k : Nat) (hlen : k + is.length ≤ 255) (h : ∀ i ∈ is, i.wf = true) :
    assembleLines k (is.map instrText) = .ok (is.map encode) := by
  induction is generalizing k with
  | nil => rfl
  | cons i is ih =>
    obtain ⟨hi, his⟩ := List.forall_mem_cons.1 h
    rw [List.length_cons] at hlen
    have hk : ¬255 ≤ k := by omega
    simp [assembleLines, Config.maxProgram, hk, assembleLine_instrText hi, ih (k + 1) (by omega) his]

/-- Settles O55: the lines of the printed program are the printed lines, and each assembles back to its word. -/
theorem printedProgramsAssembleBack : Obligations.PrintedProgramsAssembleBack := by
  unfold Obligations.PrintedProgramsAssembleBack
  intro is hlen hwf
  rw [assemble, programLines_printed hwf, assembleLines_printed 0 (by omega) hwf]

end Sys2Proof.Machine
end

section
/-! PROOFS. The statements about the step as a whole: what runs, what it never changes (R31, R41, R52), and what it never reads
(R42, R69). -/

namespace Sys2Proof.Machine

/-! ## The step of a running state, and of a stopped one -/

/-- Phases 2 to 5 of a step, on a word that need not be the one at `pc` (R90). -/
def runWord (t : State) (w : InstrWord) : Host.Outcome State Fault Refusal :=
  match decode w with
  | .ok i => exec i t
  | .error r => .next (t.raise (rejectRaise r))

theorem runWord_of_decode {w : InstrWord} {i : Instr} (t : State) (h : decode w = .ok i) : runWord t w = exec i t := by
  rw [runWord, h]

theorem runWord_of_reject {w : InstrWord} {r : Reject} (t : State) (h : decode w = .error r) :
    runWord t w = .next (t.raise (rejectRaise r)) := by
  rw [runWord, h]

theorem step_eq_runWord {t : State} (h : t.Running) : step t = runWord t t.fetch := by
  rw [step, (running_iff t).1 h]
  rfl

/-- Settles O7: in a running state the step is the run of the word at `pc`. -/
theorem stepRunsTheDecodedInstruction : Obligations.StepRunsTheDecodedInstruction := by
  unfold Obligations.StepRunsTheDecodedInstruction
  intro s i hrun hdec
  rw [step_eq_runWord hrun]
  exact runWord_of_decode s hdec

/-- Settles O9: the two stopped conditions are the two other cases of the step. -/
theorem stoppedStatesAnswerByName : Obligations.StoppedStatesAnswerByName := by
  unfold Obligations.StoppedStatesAnswerByName
  exact fun s => ⟨fun h => step_of_halted ((halted_iff s).1 h), fun h => step_of_faulted ((faulted_iff s).1 h)⟩

/-! ## What no step changes -/

theorem sameInputs_raise (t : State) (r : Raise) : SameInputs t (t.raise r) := sameInputs_of_eq rfl rfl rfl

theorem sameInputs_commit_updatePc (t : State) (e : Effect) : SameInputs t ((t.commit e.writes).updatePc e.target) :=
  sameInputs_of_eq (by simp) (by simp) (by simp)

/-- No instruction writes an input (R31, R52). -/
theorem exec_sameInputs {i : Instr} {s t : State} (h : exec i s = .next t) : SameInputs s t := by
  obtain ⟨r, rfl⟩ | ⟨e, rfl⟩ := exec_cases i s t h
  · exact sameInputs_raise s r
  · exact sameInputs_commit_updatePc s e

/-- Settles O11: a step is an instruction's or a raise. -/
theorem stepKeepsTheInputs : Obligations.StepKeepsTheInputs := by
  unfold Obligations.StepKeepsTheInputs
  intro s t hstep
  obtain ⟨-, ⟨i, -, hexec⟩ | ⟨r, -, rfl⟩⟩ := step_cases s t hstep
  · exact exec_sameInputs hexec
  · exact sameInputs_raise s _

/-! ## The same state with another instruction memory -/

/-- The state with instruction memory `m`. -/
def State.withImem (t : State) (m : Memory) : State := { t with imem := m }

theorem running_withImem {t : State} (m : Memory) (h : t.Running) : (t.withImem m).Running := h

@[simp] theorem withImem_getReg (t : State) (m : Memory) (r : Reg) : (t.withImem m).getReg r = t.getReg r := by
  cases r <;> rfl

theorem setReg_withImem (t : State) (m : Memory) (r : Reg) (v : Byte) :
    (t.withImem m).setReg r v = (t.setReg r v).withImem m := by
  cases r <;> rfl

theorem commit_withImem (t : State) (m : Memory) (ws : List (Reg × Byte)) :
    (t.withImem m).commit ws = (t.commit ws).withImem m := by
  induction ws generalizing t with
  | nil => rfl
  | cons w ws ih =>
    obtain ⟨r, v⟩ := w
    rw [commit_cons, commit_cons, setReg_withImem, ih]

theorem updatePc_withImem (t : State) (m : Memory) (o : Option Byte) :
    (t.withImem m).updatePc o = (t.updatePc o).withImem m := by
  cases o <;> rfl

/-! No check and no operand reads instruction memory (R40). -/

@[simp] theorem resolve_withImem (t : State) (m : Memory) (o : Operand) : resolve (t.withImem m) o = resolve t o := by
  cases o with
  | imm f => rfl
  | reg f => simp only [resolve, withImem_getReg]

@[simp] theorem needOption_withImem (t : State) (m : Memory) (op : BitVec 4) :
    needOption (t.withImem m) op = needOption t op := rfl

@[simp] theorem jump_withImem (t : State) (m : Memory) (v : Byte) : jump (t.withImem m) v = jump t v := rfl

theorem compareOperands_withImem (n : TokenCount) (a b : Operand) (t : State) (m : Memory) (rel : Byte → Byte → Bool) :
    compareOperands n a b (t.withImem m) rel = compareOperands n a b t rel := by
  simp only [compareOperands, resolve_withImem]

theorem takeJump_withImem (n : TokenCount) (a : Operand) (t : State) (m : Memory) :
    takeJump n a (t.withImem m) = takeJump n a t := by
  simp only [takeJump, resolve_withImem, jump_withImem]

theorem jumpIf_withImem (taken : Bool) (n : TokenCount) (a : Operand) (t : State) (m : Memory) :
    jumpIf taken n a (t.withImem m) = jumpIf taken n a t := by
  simp only [jumpIf, takeJump_withImem]

/-- A meaning raises the same, or commits the same effect, whatever instruction memory is. -/
theorem exec_is_complete_withImem (i : Instr) (t : State) (m : Memory) :
    ∃ x, exec i t = complete t x ∧ exec i (t.withImem m) = complete (t.withImem m) x := by
  cases i with
  | mov n a b => exact ⟨_, rfl, by simp only [exec, execMov, resolve_withImem]⟩
  | add n a b => exact ⟨_, rfl, by simp only [exec, execAdd, resolve_withImem]⟩
  | sub n a b => exact ⟨_, rfl, by simp only [exec, execSub, resolve_withImem]⟩
  | cmp n a b => exact ⟨_, rfl, by simp only [exec, execCmp, compareOperands_withImem]⟩
  | cgt n a b => exact ⟨_, rfl, by simp only [exec, execCgt, compareOperands_withImem, needOption_withImem]⟩
  | clt n a b => exact ⟨_, rfl, by simp only [exec, execClt, compareOperands_withImem, needOption_withImem]⟩
  | jmp n a b => exact ⟨_, rfl, by simp only [exec, execJmp, takeJump_withImem]⟩
  | jnz n a b => exact ⟨_, rfl, by simp only [exec, execJnz, jumpIf_withImem]; rfl⟩
  | jze n a b => exact ⟨_, rfl, by simp only [exec, execJze, jumpIf_withImem]; rfl⟩

theorem exec_withImem {i : Instr} {t u : State} (m : Memory) (h : exec i t = .next u) :
    exec i (t.withImem m) = .next (u.withImem m) := by
  obtain ⟨x, hx, hx'⟩ := exec_is_complete_withImem i t m
  rw [hx']
  obtain ⟨r, rfl, rfl⟩ | ⟨e, rfl, rfl⟩ := complete_cases t u x (hx ▸ h)
  · rfl
  · rw [complete_ok, commit_withImem, updatePc_withImem]

theorem runWord_withImem {w : InstrWord} {t u : State} (m : Memory) (h : runWord t w = .next u) :
    runWord (t.withImem m) w = .next (u.withImem m) := by
  cases hdec : decode w with
  | ok i =>
    rw [runWord_of_decode _ hdec] at h ⊢
    exact exec_withImem m h
  | error r =>
    rw [runWord_of_reject _ hdec] at h ⊢
    cases h
    rfl

/-- Where another memory has at `pc` a word that runs as the fetched one does, the step there is the same step. -/
theorem step_withImem {s t : State} {m : Memory} (hword : runWord s (m.readWord s.pc.toNat) = runWord s s.fetch)
    (h : step s = .next t) : step (s.withImem m) = .next (t.withImem m) := by
  have hrun : s.Running := (exists_step_next_iff_running s).1 ⟨t, h⟩
  rw [step_eq_runWord (running_withImem m hrun)]
  exact runWord_withImem m (hword.trans ((step_eq_runWord hrun).symm.trans h))

/-- Settles O10: a running state has `pc` below `PEND`, and the word at `pc` is the one word a step reads. -/
theorem wordsAbovePendAreNeverSeen : Obligations.WordsAbovePendAreNeverSeen := by
  unfold Obligations.WordsAbovePendAreNeverSeen
  intro s t m hagree hstep
  obtain ⟨-, hlt⟩ := (exists_step_next_iff_running s).1 ⟨t, hstep⟩
  refine step_withImem ?_ hstep
  rw [hagree _ hlt]
  rfl

/-! ## Fields that are not used (R69) -/

/-- A word runs as the list of R155 says: it raises the fault named for it. -/
theorem runWord_of_faultOf {t : State} {w : InstrWord} {r : Raise} (h : faultOf t w = some r) :
    runWord t w = .next (t.raise r) := by
  cases hdec : decode w with
  | ok i =>
    rw [faultOf_of_decode t hdec] at h
    rw [runWord_of_decode t hdec]
    obtain ⟨q, hq, hexec⟩ | ⟨hnone, -⟩ := exec_cases_faultOf i t
    · cases hq.symm.trans h
      exact hexec
    · cases hnone.symm.trans h
  | error q =>
    cases (faultOf_of_reject t hdec).symm.trans h
    exact runWord_of_reject t hdec

section
variable {t : State} {w w' : InstrWord}

theorem faultOf_no_text (h : nField w = 0) : faultOf t w = some ⟨.missingOperand, 0⟩ := if_pos h

theorem faultOf_absent (hn : nField w ≠ 0) (h : absentOpcode t (opField w) = true) :
    faultOf t w = some ⟨.unknownOpcode, (opField w).setWidth 9⟩ := by
  rw [faultOf, if_neg hn, if_pos h]

theorem faultOf_arity (habsent : absentOpcode t (opField w) = false) (hop : (opField w).toNat ≤ 6) (hn : nField w = 1) :
    faultOf t w = some ⟨.arity, 1⟩ := by
  have hjnz : opField w ≠ 8#4 := by bv_omega
  have hjze : opField w ≠ 9#4 := by bv_omega
  simp [faultOf, operandFault, hn, habsent, hop, hjnz, hjze]

/-- Two words that raise the same fault run the same. -/
theorem runWord_congr_of_faultOf {r : Raise} (h : faultOf t w = some r) (h' : faultOf t w' = some r) :
    runWord t w' = runWord t w := by
  rw [runWord_of_faultOf h, runWord_of_faultOf h']

theorem runWord_jnz_not_taken (hop : opField w = 0x8) (hn : nField w ≠ 0) (hs : t.s = 0) :
    runWord t w = .next (t.updatePc none) := by
  rw [runWord_of_decode t (decode_jnz hop), exec_jnz_not_taken _ _ hn hs]

theorem runWord_jze_not_taken (hop : opField w = 0x9) (hn : nField w ≠ 0) (hs : t.s ≠ 0) :
    runWord t w = .next (t.updatePc none) := by
  rw [runWord_of_decode t (decode_jze hop), exec_jze_not_taken _ _ hn hs]

/-- No jump uses operand B (R69): its meaning does not name it. -/
theorem runWord_jump_congr (hop : opField w = 7 ∨ opField w = 8 ∨ opField w = 9) (hop' : opField w' = opField w)
    (hn : nField w' = nField w) (ha : operandA w' = operandA w) : runWord t w' = runWord t w := by
  rcases hop with h | h | h
  · rw [runWord_of_decode t (decode_jmp h), runWord_of_decode t (decode_jmp (hop'.trans h)), hn, ha]
    rfl
  · rw [runWord_of_decode t (decode_jnz h), runWord_of_decode t (decode_jnz (hop'.trans h)), hn, ha]
    rfl
  · rw [runWord_of_decode t (decode_jze h), runWord_of_decode t (decode_jze (hop'.trans h)), hn, ha]
    rfl

/-- The opcodes of a core's dispatch table from 7 on are the jumps. -/
theorem jump_of_not_absent (habsent : absentOpcode t (opField w) = false) (hop : 7 ≤ (opField w).toNat) :
    opField w = 7 ∨ opField w = 8 ∨ opField w = 9 := by
  have htop : (opField w).toNat < 10 := by
    by_contra hge
    simp [absentOpcode, Nat.not_lt.1 hge] at habsent
  bv_omega

end

/-- Settles O33: where both words raise, they raise the same fault; a jump that is not taken only advances, and a taken one
does not name operand B. -/
theorem unusedFieldsAreIgnored : Obligations.UnusedFieldsAreIgnored := by
  unfold Obligations.UnusedFieldsAreIgnored
  intro s t m
  dsimp only
  intro hop hn hcases hstep
  refine step_withImem ?_ hstep
  by_cases htext : nField s.fetch = 0
  · exact runWord_congr_of_faultOf (faultOf_no_text htext) (faultOf_no_text (hn.trans htext))
  have htext' : nField (m.readWord s.pc.toNat) ≠ 0 := fun h => htext (hn ▸ h)
  cases habsent : absentOpcode s (opField s.fetch) with
  | true =>
    have habsent' := faultOf_absent htext' (hop ▸ habsent)
    exact runWord_congr_of_faultOf (faultOf_absent htext habsent) (hop ▸ habsent')
  | false =>
    obtain hzero | hpresent | ⟨hlow, hone⟩ | ⟨hjnz, hs⟩ | ⟨hjze, hs⟩ | ⟨hjump, hma, ha⟩ := hcases
    · exact absurd hzero htext
    · exact absurd (hpresent.symm.trans habsent) (by decide)
    · exact runWord_congr_of_faultOf (faultOf_arity habsent hlow hone)
        (faultOf_arity (hop ▸ habsent) (hop ▸ hlow) (hn.trans hone))
    · rw [runWord_jnz_not_taken hjnz htext hs, runWord_jnz_not_taken (hop.trans hjnz) htext' hs]
    · rw [runWord_jze_not_taken hjze htext hs, runWord_jze_not_taken (hop.trans hjze) htext' hs]
    · exact runWord_jump_congr (jump_of_not_absent habsent hjump) hop hn (by rw [operandA, hma, ha]; rfl)

end Sys2Proof.Machine
end

section
/-! PROOFS. The state statements: the register file (R20, R22), the state after Reset with nothing loaded (R33), the output
signals (R35). -/

namespace Sys2Proof.Machine

/-- Settles O12: the numbers are the table's, and a write is seen in its own register only. -/
theorem registersAreSixSeparateBytes : Obligations.RegistersAreSixSeparateBytes := by
  unfold Obligations.RegistersAreSixSeparateBytes
  refine ⟨⟨rfl, rfl, rfl, rfl, rfl, rfl⟩, fun s r q v => ⟨getReg_setReg s r q v, by simp [SameLatch], ?_⟩⟩
  exact sameInputs_of_eq (by simp) (by simp) (by simp)

/-- Settles O48: Reset of a state whose registers are 0, with `PEND` 0 and EmptyProgram latched, is that state. -/
theorem resetStateIsResetOfNothing : Obligations.ResetStateIsResetOfNothing := by
  unfold Obligations.ResetStateIsResetOfNothing
  exact ⟨rfl, applyReset_getReg State.reset, rfl, rfl, rfl, rfl⟩

/-- Settles O53: `halted` is 1 where the condition is halted and `faulted` where `FCODE` is not 0; the other signals are the
fields. -/
theorem portsShowTheState : Obligations.PortsShowTheState := by
  unfold Obligations.PortsShowTheState
  intro s
  refine ⟨?_, ?_, rfl, rfl, rfl, rfl, rfl, rfl, rfl, rfl, rfl, rfl⟩
  · rw [halted_iff]
    exact decide_eq_true_iff
  · exact decide_eq_true_iff

end Sys2Proof.Machine
end

section
/-! PROOFS. The executor under fuel (R102, U11) answers the state of the run at which it stops. -/

namespace Sys2Proof.Machine

section
variable {fuel : Nat} {start t : State}

/-- A run that starts in a stopped state is that state. -/
theorem stateAt_eq_some_of_stopped (h : start.condition ≠ .running) (k : Nat) :
    stateAt k start = some t ↔ k = 0 ∧ start = t := by
  cases k with
  | zero => simp
  | succ k => simp [stateAt_succ_of_stopped h]

theorem runFuel_eq_some_of_stopped (h : start.condition ≠ .running) (fuel : Nat) :
    runFuel fuel start = some t ↔ ∃ k, k ≤ fuel ∧ stateAt k start = some t ∧ t.condition ≠ .running := by
  simp only [runFuel_of_stopped h, stateAt_eq_some_of_stopped h, Option.some.injEq]
  exact ⟨fun ht => ⟨0, Nat.zero_le fuel, ⟨rfl, ht⟩, ht ▸ h⟩, fun ⟨_, _, ⟨_, ht⟩, _⟩ => ht⟩

/-- With fuel `n` the executor answers the stopped state of the run up to step `n`, if there is one. -/
theorem runFuel_eq_some :
    runFuel fuel start = some t ↔ ∃ k, k ≤ fuel ∧ stateAt k start = some t ∧ t.condition ≠ .running := by
  induction fuel generalizing start with
  | zero =>
    by_cases hrun : start.condition = .running
    · rw [runFuel_zero_of_running hrun]
      refine ⟨nofun, ?_⟩
      rintro ⟨k, hk, hat, hstop⟩
      obtain rfl := Nat.le_zero.1 hk
      cases hat
      exact absurd hrun hstop
    · exact runFuel_eq_some_of_stopped hrun 0
  | succ fuel ih =>
    obtain ⟨hrun, u, hu⟩ | ⟨hstopped, -⟩ := step_total start
    · rw [runFuel_succ_of_next hu, ih]
      constructor
      · rintro ⟨k, hk, hat, hstop⟩
        exact ⟨k + 1, by omega, (stateAt_succ_of_next hu k).trans hat, hstop⟩
      · rintro ⟨_ | k, hk, hat, hstop⟩
        · cases hat
          exact absurd hrun hstop
        · exact ⟨k, by omega, (stateAt_succ_of_next hu k).symm.trans hat, hstop⟩
    · exact runFuel_eq_some_of_stopped hstopped (fuel + 1)

theorem runEndsIn_iff_runFuel : RunEndsIn start t ↔ ∃ fuel, runFuel fuel start = some t := by
  simp only [runFuel_eq_some]
  constructor
  · rintro ⟨k, hk, hstop⟩
    exact ⟨k, k, Nat.le_refl k, hk, hstop⟩
  · rintro ⟨-, k, -, hk, hstop⟩
    exact ⟨k, hk, hstop⟩

end

/-- Settles O59: an answer is a result of the run, and a run that never ends has none. -/
theorem executorFindsTheResult : Obligations.ExecutorFindsTheResult := by
  unfold Obligations.ExecutorFindsTheResult
  refine fun start t => ⟨fun fuel => ?_, runEndsIn_iff_runFuel, fun hforever fuel => ?_⟩
  · simp only [← condition_ne_running_iff]
    exact runFuel_eq_some
  · rw [Option.eq_none_iff_forall_ne_some]
    exact fun u hu => runsForever_iff.1 hforever ⟨u, runEndsIn_iff_runFuel.2 ⟨fuel, hu⟩⟩

end Sys2Proof.Machine
end

section
/-! PROOFS. The comparison statements on `cgt` and `clt` (R131 to R133): with the option they are the comparison of their
relation, and the two mirror each other. -/

namespace Sys2Proof.Machine

/-- The instruction `mk` builds runs as the comparison by `rel`, where the option is there (R133). -/
def IsOptionalCompare (mk : TokenCount → Operand → Operand → Instr) (rel : Byte → Byte → Bool) : Prop :=
  ∀ n a b s, n ≠ 0 → s.hasCgtClt = true → exec (mk n a b) s = complete s (compareOperands n a b s rel)

theorem isOptionalCompare_cgt : IsOptionalCompare .cgt fun x y => decide (x.toNat > y.toNat) := by
  intro n a b s hn hopt
  simp only [exec, execCgt, needText_pos hn, needOption_true _ hopt]
  rfl

theorem isOptionalCompare_clt : IsOptionalCompare .clt fun x y => decide (x.toNat < y.toNat) := by
  intro n a b s hn hopt
  simp only [exec, execClt, needText_pos hn, needOption_true _ hopt]
  rfl

theorem ne_zero_of_two_le {n : TokenCount} (hn : 2 ≤ n.toNat) : n ≠ 0 := by
  rintro rfl
  exact absurd hn (by decide)

section
variable {mk : TokenCount → Operand → Operand → Instr} {rel : Byte → Byte → Bool} {s : State} {n : TokenCount}
  {a b : Operand} {x y : Byte}

theorem compareOperands_ok (rel : Byte → Byte → Bool) (hn : 2 ≤ n.toNat) (ha : HasValue s a x) (hb : HasValue s b y) :
    compareOperands n a b s rel = .ok { writes := [(.s, truthValue (rel x y))], target := none } := by
  rw [hasValue_iff] at ha hb
  simp only [compareOperands, needOps_ok hn, ha, hb]
  rfl

/-! ## What a comparison under the option does (R96, R98) -/

theorem IsOptionalCompare.exec_one_token (h : IsOptionalCompare mk rel) (a b : Operand) (hopt : s.hasCgtClt = true) :
    exec (mk 1 a b) s = .next (s.raise ⟨.arity, 1⟩) := by
  rw [h 1 a b s (by decide) hopt, compareOperands_one_token, complete_error]

theorem IsOptionalCompare.exec_bad_left (h : IsOptionalCompare mk rel) (b : Operand) (hn : 2 ≤ n.toNat)
    (hopt : s.hasCgtClt = true) (ha : Unreadable a) :
    exec (mk n a b) s = .next (s.raise ⟨.unknownRegister, a.token⟩) := by
  rw [h n a b s (ne_zero_of_two_le hn) hopt, compareOperands_bad_left b rel hn (resolve_of_unreadable ha), complete_error]

theorem IsOptionalCompare.exec_bad_right (h : IsOptionalCompare mk rel) (hn : 2 ≤ n.toNat) (hopt : s.hasCgtClt = true)
    (ha : HasValue s a x) (hb : Unreadable b) :
    exec (mk n a b) s = .next (s.raise ⟨.unknownRegister, b.token⟩) := by
  rw [hasValue_iff] at ha
  rw [h n a b s (ne_zero_of_two_le hn) hopt, compareOperands_bad_right rel hn ha (resolve_of_unreadable hb), complete_error]

theorem IsOptionalCompare.exec_wrote (h : IsOptionalCompare mk rel) (hn : 2 ≤ n.toNat) (hopt : s.hasCgtClt = true)
    (ha : HasValue s a x) (hb : HasValue s b y) :
    ∃ t, exec (mk n a b) s = .next t ∧ Wrote s t .s (truthValue (rel x y)) none := by
  rw [h n a b s (ne_zero_of_two_le hn) hopt, compareOperands_ok rel hn ha hb, complete_ok]
  exact ⟨_, rfl, wrote_of_only_write s .s _⟩

/-- With two values the order of the operands is the order in which the relation takes them. -/
theorem compareOperands_swap (rel' : Byte → Byte → Bool) (hrel : rel x y = rel' y x) (ha : HasValue s a x)
    (hb : HasValue s b y) : compareOperands n a b s rel = compareOperands n b a s rel' := by
  rw [hasValue_iff] at ha hb
  simp only [compareOperands, ha, hb]
  change (needOps 2 n >>= fun _ => pure (⟨[(.s, truthValue (rel x y))], none⟩ : Effect)) = _
  rw [hrel]
  rfl

end

/-- Settles O19: the option is checked before the operands; with it the faults and the write are the comparison's. -/
theorem cgtTestsGreater : Obligations.CgtTestsGreater := by
  unfold Obligations.CgtTestsGreater
  refine ⟨fun w hop _ => decode_cgt hop, fun n a b => count_of_wfCompare, fun s n a b hn hopt => ?_, fun s a b hopt => ?_,
    fun s n a b hn hopt ha => ?_, fun s n a b x hn hopt ha hb => ?_, fun s n a b x y hn hopt ha hb => ?_⟩
  · exact ⟨_, exec_of_no_option (i := .cgt n a b) (.inl rfl) hn hopt, rfl⟩
  · exact ⟨_, isOptionalCompare_cgt.exec_one_token a b hopt, rfl⟩
  · exact ⟨_, isOptionalCompare_cgt.exec_bad_left b hn hopt ha, rfl⟩
  · exact ⟨_, isOptionalCompare_cgt.exec_bad_right hn hopt ha hb, rfl⟩
  · exact truthValue_decide (y.toNat < x.toNat) ▸ isOptionalCompare_cgt.exec_wrote hn hopt ha hb

/-- Settles O20: the option is checked before the operands; with it the faults and the write are the comparison's. -/
theorem cltTestsLess : Obligations.CltTestsLess := by
  unfold Obligations.CltTestsLess
  refine ⟨fun w hop _ => decode_clt hop, fun n a b => count_of_wfCompare, fun s n a b hn hopt => ?_, fun s a b hopt => ?_,
    fun s n a b hn hopt ha => ?_, fun s n a b x hn hopt ha hb => ?_, fun s n a b x y hn hopt ha hb => ?_⟩
  · exact ⟨_, exec_of_no_option (i := .clt n a b) (.inr rfl) hn hopt, rfl⟩
  · exact ⟨_, isOptionalCompare_clt.exec_one_token a b hopt, rfl⟩
  · exact ⟨_, isOptionalCompare_clt.exec_bad_left b hn hopt ha, rfl⟩
  · exact ⟨_, isOptionalCompare_clt.exec_bad_right hn hopt ha hb, rfl⟩
  · exact truthValue_decide (x.toNat < y.toNat) ▸ isOptionalCompare_clt.exec_wrote hn hopt ha hb

/-- Settles O31: without operand text both raise MissingOperand; with it both are comparisons, by mirrored relations. -/
theorem cltMirrorsCgt : Obligations.CltMirrorsCgt := by
  unfold Obligations.CltMirrorsCgt
  intro s n a b x y hopt ha hb
  by_cases hn : n = 0
  · rw [exec_of_no_text (i := .clt n a b) s hn, exec_of_no_text (i := .cgt n b a) s hn]
  · rw [isOptionalCompare_clt n a b s hn hopt, isOptionalCompare_cgt n b a s hn hopt]
    exact congrArg (complete s) (compareOperands_swap _ rfl ha hb)

end Sys2Proof.Machine
end

section
/-! PROOFS. What each instruction leaves, said once (`ExecResult`), and the statements that follow from it: `pc` (R25), the
flags (R26, R36) and the frames. -/

namespace Sys2Proof.Machine

/-! ## The outcomes of an instruction -/

/-- The flag an instruction sets without naming it: `ovfl` of `add`, `udfl` of `sub` (R26). -/
def OwnFlag (i : Instr) (f : Reg) : Prop := (i.opcode = 0x2 ∧ f = .ovfl) ∨ (i.opcode = 0x3 ∧ f = .udfl)

/-- Everything instruction `i` can leave of state `s`. -/
inductive ExecResult (i : Instr) (s : State) : State → Prop
  /-- It raised a fault. -/
  | raised (r : Raise) : ExecResult i s (s.raise r)
  /-- `mov`, `add` or `sub` wrote its destination, after its own flag if that was set. -/
  | wrote {t : State} {d : Reg} {v : Byte} {flag : Option Reg} (hop : i.opcode.toNat ≤ 3) (hd : destinationOf i = some d)
      (hflag : ∀ f, flag = some f → OwnFlag i f) (hw : Wrote s t d v flag) : ExecResult i s t
  /-- A comparison wrote `s`. -/
  | compared {t : State} (c : Bool) (hlow : 4 ≤ i.opcode.toNat) (hhigh : i.opcode.toNat ≤ 6)
      (hw : Wrote s t .s (truthValue c) none) : ExecResult i s t
  /-- A taken jump stored its target in `pc`. -/
  | jumped (v : Byte) (hop : 7 ≤ i.opcode.toNat) (htaken : TakenJump s i.opcode) : ExecResult i s (s.setReg .pc v)
  /-- A conditional jump was not taken. -/
  | advanced (hop : 7 ≤ i.opcode.toNat) : ExecResult i s (s.updatePc none)

/-- The instruction answers a next state, and that is one `ExecResult` lists. -/
def HasResult (i : Instr) (s : State) : Prop := ∃ t, exec i s = .next t ∧ ExecResult i s t

theorem hasResult_of_raise {i : Instr} {s : State} {r : Raise} (h : exec i s = .next (s.raise r)) : HasResult i s :=
  ⟨_, h, .raised r⟩

theorem tokenCount_cases (n : TokenCount) : n = 0 ∨ n = 1 ∨ 2 ≤ n.toNat := by
  bv_omega

section
variable (s : State) (n : TokenCount) (a b : Operand)

theorem hasResult_mov : HasResult (.mov n a b) s := by
  obtain rfl | rfl | hn := tokenCount_cases n
  · exact hasResult_of_raise (exec_of_no_text s rfl)
  · exact hasResult_of_raise (exec_mov_one_token s a b)
  obtain hbad | ⟨v, hv⟩ := unreadable_or_hasValue s b
  · exact hasResult_of_raise (exec_mov_bad_value s a hn (resolve_of_unreadable hbad))
  rw [hasValue_iff] at hv
  obtain hbad | ⟨d, rfl⟩ := unwritable_or_number a
  · exact hasResult_of_raise (exec_mov_bad_destination hn hv (dstReg_of_unwritable hbad))
  · exact ⟨_, exec_mov_ok d hn hv, .wrote (flag := none) (by decide : (1#4).toNat ≤ 3) (regOfNumber_number d) nofun
      (wrote_of_only_write s d v)⟩

/-- What `add` and `sub` share: the faults, and else a write of the destination. -/
theorem hasResult_clamp {mk : TokenCount → Operand → Operand → Instr} {flags : Byte → Byte → List (Reg × Byte)}
    {clamp : Byte → Byte → Byte} (hmk : IsClampInstr mk flags clamp)
    (htext : exec (mk 0 a b) s = .next (s.raise ⟨.missingOperand, 0⟩))
    (hok : ∀ (d : Reg) x, 2 ≤ n.toNat → HasValue s a x → HasResult (mk n a (.reg d.number)) s) : HasResult (mk n a b) s := by
  obtain rfl | rfl | hn := tokenCount_cases n
  · exact hasResult_of_raise htext
  · exact hasResult_of_raise (hmk.exec_one_token s a b)
  obtain hbad | ⟨x, hx⟩ := unreadable_or_hasValue s a
  · exact hasResult_of_raise (hmk.exec_bad_source b hn (resolve_of_unreadable hbad))
  obtain hbad | ⟨d, rfl⟩ := unwritable_or_number b
  · exact hasResult_of_raise (hmk.exec_bad_destination hn ((hasValue_iff s a x).1 hx) hbad)
  · exact hok d x hn hx

theorem hasResult_add : HasResult (.add n a b) s := by
  refine hasResult_clamp s n a b isClampInstr_add (exec_of_no_text s rfl) fun d x hn hx => ?_
  obtain ⟨t, ht, hw⟩ := exec_add_wrote d hn hx
  refine ⟨t, ht, .wrote (by decide : (2#4).toNat ≤ 3) (regOfNumber_number d) (fun f hf => ?_) hw⟩
  obtain ⟨-, hf⟩ := Option.ite_none_right_eq_some.1 hf
  exact .inl ⟨rfl, (Option.some.inj hf).symm⟩

theorem hasResult_sub : HasResult (.sub n a b) s := by
  refine hasResult_clamp s n a b isClampInstr_sub (exec_of_no_text s rfl) fun d x hn hx => ?_
  obtain ⟨t, ht, hw⟩ := exec_sub_wrote d hn hx
  refine ⟨t, ht, .wrote (by decide : (3#4).toNat ≤ 3) (regOfNumber_number d) (fun f hf => ?_) hw⟩
  obtain ⟨-, hf⟩ := Option.ite_none_right_eq_some.1 hf
  exact .inr ⟨rfl, (Option.some.inj hf).symm⟩

/-- Everything the comparison of two operands can do. -/
theorem compareOperands_cases (rel : Byte → Byte → Bool) :
    (∃ r, compareOperands n a b s rel = .error r) ∨
      ∃ c, compareOperands n a b s rel = .ok { writes := [(.s, truthValue c)], target := none } := by
  obtain hn | hn := Nat.lt_or_ge n.toNat 2
  · exact .inl ⟨⟨.arity, n.setWidth 9⟩, by rw [compareOperands, needOps_error hn]; rfl⟩
  obtain hbad | ⟨x, hx⟩ := unreadable_or_hasValue s a
  · exact .inl ⟨_, compareOperands_bad_left b rel hn (resolve_of_unreadable hbad)⟩
  obtain hbad | ⟨y, hy⟩ := unreadable_or_hasValue s b
  · exact .inl ⟨_, compareOperands_bad_right rel hn ((hasValue_iff s a x).1 hx) (resolve_of_unreadable hbad)⟩
  · exact .inr ⟨_, compareOperands_ok rel hn hx hy⟩

/-- An instruction that is the comparison of two operands raises, or writes `s`. -/
theorem hasResult_compare {i : Instr} {rel : Byte → Byte → Bool} (hlow : 4 ≤ i.opcode.toNat) (hhigh : i.opcode.toNat ≤ 6)
    (h : exec i s = complete s (compareOperands n a b s rel)) : HasResult i s := by
  obtain ⟨r, hr⟩ | ⟨c, hc⟩ := compareOperands_cases s n a b rel
  · exact hasResult_of_raise (by rw [h, hr, complete_error])
  · exact ⟨_, by rw [h, hc, complete_ok], .compared c hlow hhigh (wrote_of_only_write s .s _)⟩

theorem exec_cmp_eq {n : TokenCount} (hn : n ≠ 0) :
    exec (.cmp n a b) s = complete s (compareOperands n a b s fun x y => decide (x = y)) := by
  simp only [exec, execCmp, needText_pos hn]
  rfl

theorem hasResult_cmp : HasResult (.cmp n a b) s := by
  by_cases hn : n = 0
  · exact hasResult_of_raise (exec_of_no_text s hn)
  · exact hasResult_compare s n a b (by decide : 4 ≤ (4#4).toNat) (by decide : (4#4).toNat ≤ 6) (exec_cmp_eq s a b hn)

/-- What `cgt` and `clt` share: without operand text or without the option they raise, else they compare. -/
theorem hasResult_optionalCompare {mk : TokenCount → Operand → Operand → Instr} {rel : Byte → Byte → Bool}
    (hmk : IsOptionalCompare mk rel) (hop : (mk n a b).opcode.toNat = 5 ∨ (mk n a b).opcode.toNat = 6)
    (hcount : (mk n a b).count = n) : HasResult (mk n a b) s := by
  by_cases hn : n = 0
  · exact hasResult_of_raise (exec_of_no_text s (hcount.trans hn))
  · cases hopt : s.hasCgtClt with
    | false => exact hasResult_of_raise (exec_of_no_option hop (hcount.symm ▸ hn) hopt)
    | true => exact hasResult_compare s n a b (by omega) (by omega) (hmk n a b s hn hopt)

/-- A taken jump with operand text raises, or stores its target. -/
theorem hasResult_taken {i : Instr} (hn : n ≠ 0) (hop : 7 ≤ i.opcode.toNat) (htaken : TakenJump s i.opcode)
    (h : exec i s = exec (.jmp n a b) s) : HasResult i s := by
  obtain hbad | ⟨x, hx⟩ := unreadable_or_hasValue s a
  · exact hasResult_of_raise (h.trans (exec_jmp_bad_target b hn (resolve_of_unreadable hbad)))
  rw [hasValue_iff] at hx
  obtain hfar | hnear := Nat.lt_or_ge s.pend.toNat x.toNat
  · exact hasResult_of_raise (h.trans (exec_jmp_out_of_bounds b hn hx hfar))
  · exact ⟨_, h.trans (exec_jmp_ok b hn hx hnear), .jumped x hop htaken⟩

theorem hasResult_jmp : HasResult (.jmp n a b) s := by
  by_cases hn : n = 0
  · exact hasResult_of_raise (exec_of_no_text s hn)
  · exact hasResult_taken s n a b hn (by decide : 7 ≤ (7#4).toNat) (.inl rfl) rfl

theorem hasResult_jnz : HasResult (.jnz n a b) s := by
  have hop : 7 ≤ (Instr.jnz n a b).opcode.toNat := by simp [Instr.opcode]
  by_cases hn : n = 0
  · exact hasResult_of_raise (exec_of_no_text s hn)
  by_cases hs : s.s = 0
  · exact ⟨_, exec_jnz_not_taken a b hn hs, .advanced hop⟩
  · exact hasResult_taken s n a b hn hop (.inr (.inl ⟨rfl, hs⟩)) (exec_jnz_taken n a b hs)

theorem hasResult_jze : HasResult (.jze n a b) s := by
  have hop : 7 ≤ (Instr.jze n a b).opcode.toNat := by simp [Instr.opcode]
  by_cases hn : n = 0
  · exact hasResult_of_raise (exec_of_no_text s hn)
  by_cases hs : s.s = 0
  · exact hasResult_taken s n a b hn hop (.inr (.inr ⟨rfl, hs⟩)) (exec_jze_taken n a b hs)
  · exact ⟨_, exec_jze_not_taken a b hn hs, .advanced hop⟩

end

theorem hasResult (i : Instr) (s : State) : HasResult i s := by
  cases i with
  | mov n a b => exact hasResult_mov s n a b
  | add n a b => exact hasResult_add s n a b
  | sub n a b => exact hasResult_sub s n a b
  | cmp n a b => exact hasResult_cmp s n a b
  | cgt n a b => exact hasResult_optionalCompare s n a b isOptionalCompare_cgt (.inl rfl) rfl
  | clt n a b => exact hasResult_optionalCompare s n a b isOptionalCompare_clt (.inr rfl) rfl
  | jmp n a b => exact hasResult_jmp s n a b
  | jnz n a b => exact hasResult_jnz s n a b
  | jze n a b => exact hasResult_jze s n a b

theorem execResult_of_exec {i : Instr} {s t : State} (h : exec i s = .next t) : ExecResult i s t := by
  obtain ⟨u, hu, hres⟩ := hasResult i s
  cases hu.symm.trans h
  exact hres

theorem execResult_of_step {i : Instr} {s t : State} (hrun : s.Running) (hdec : decode s.fetch = .ok i)
    (h : step s = .next t) : ExecResult i s t :=
  execResult_of_exec ((stepRunsTheDecodedInstruction s i hrun hdec).symm.trans h)

/-! ## What the outcomes have in common -/

/-- A register that is neither written nor `pc` is unchanged. -/
theorem Wrote.getReg_of_ne {t u : State} {d r : Reg} {v : Byte} {flag : Option Reg} (h : Wrote t u d v flag) (hpc : r ≠ .pc)
    (hd : r ≠ d) (hflag : some r ≠ flag) : u.getReg r = t.getReg r := by
  obtain ⟨hreg, -⟩ := h
  rw [hreg r hpc, if_neg hd, if_neg hflag]

section
variable {i : Instr} {s t : State}

/-- The latch changes only where a fault is raised. -/
theorem ExecResult.raised_or_sameLatch (h : ExecResult i s t) : (∃ r, t = s.raise r) ∨ SameLatch s t := by
  cases h with
  | raised r => exact .inl ⟨r, rfl⟩
  | wrote _ _ _ hw =>
    obtain ⟨-, -, hlatch, -⟩ := hw
    exact .inr hlatch
  | compared _ _ _ hw =>
    obtain ⟨-, -, hlatch, -⟩ := hw
    exact .inr hlatch
  | jumped v => exact .inr ⟨rfl, rfl, rfl⟩
  | advanced => exact .inr ⟨rfl, rfl, rfl⟩

/-- The registers an instruction may change are `pc`, the destination it names, its own flag, and `s` of a comparison. -/
theorem ExecResult.getReg_frame (h : ExecResult i s t) {r : Reg} (hpc : r ≠ .pc) (hdest : destinationOf i ≠ some r)
    (hown : ¬OwnFlag i r) (hcmp : 4 ≤ i.opcode.toNat → i.opcode.toNat ≤ 6 → r ≠ .s) : t.getReg r = s.getReg r := by
  cases h with
  | raised q => exact raise_getReg s q r
  | wrote _ hd hflag hw =>
    exact hw.getReg_of_ne hpc (fun hr => hdest (hr ▸ hd)) fun hr => hown (hflag r hr.symm)
  | compared _ hlow hhigh hw => exact hw.getReg_of_ne hpc (hcmp hlow hhigh) nofun
  | jumped v => rw [getReg_setReg, if_neg hpc]
  | advanced => exact updatePc_getReg s none r hpc

/-- An instruction's own flag is left, or set to 1 (R26). -/
theorem ExecResult.getReg_ownFlag (h : ExecResult i s t) {f : Reg} (hpc : f ≠ .pc) (hs : f ≠ .s)
    (hdest : destinationOf i ≠ some f) : t.getReg f = s.getReg f ∨ (OwnFlag i f ∧ t.getReg f = 1) := by
  cases h with
  | wrote _ hd hflag hw =>
    obtain ⟨hreg, -⟩ := hw
    have hne : f ≠ _ := fun hf => hdest (hf ▸ hd)
    rw [hreg f hpc, if_neg hne]
    split
    next hset => exact .inr ⟨hflag f hset.symm, rfl⟩
    next => exact .inl rfl
  | raised q => exact .inl (raise_getReg s q f)
  | compared _ _ _ hw => exact .inl (hw.getReg_of_ne hpc hs nofun)
  | jumped v => exact .inl (by rw [getReg_setReg, if_neg hpc])
  | advanced => exact .inl (updatePc_getReg s none f hpc)

theorem truthValue_eq (c : Bool) : truthValue c = 0 ∨ truthValue c = 1 := by
  cases c
  · exact .inl rfl
  · exact .inr rfl

/-- Where it is not the destination, `s` is left or written by a comparison (R26). -/
theorem ExecResult.s_eq (h : ExecResult i s t) (hdest : destinationOf i ≠ some .s) :
    t.s = s.s ∨ (4 ≤ i.opcode.toNat ∧ i.opcode.toNat ≤ 6 ∧ (t.s = 0 ∨ t.s = 1)) := by
  have hown : ¬OwnFlag i .s := by simp [OwnFlag]
  by_cases hcmp : 4 ≤ i.opcode.toNat ∧ i.opcode.toNat ≤ 6
  · obtain ⟨hlow, hhigh⟩ := hcmp
    cases h with
    | compared c _ _ hw =>
      have hval : t.s = truthValue c := hw.getReg_destination
      exact .inr ⟨hlow, hhigh, hval ▸ truthValue_eq c⟩
    | raised q => exact .inl rfl
    | wrote hop => omega
    | jumped _ hop => omega
    | advanced hop => omega
  · exact .inl (h.getReg_frame (by decide) hdest hown fun hlow hhigh => absurd ⟨hlow, hhigh⟩ hcmp)

end

/-! ## The flags (R26, R36) -/

/-- Settles O29: the own flag of `add` is `ovfl`, that of `sub` is `udfl`, and `s` is a comparison's. -/
theorem flagsAreStickyAndOwned : Obligations.FlagsAreStickyAndOwned := by
  unfold Obligations.FlagsAreStickyAndOwned
  intro s t i hrun hdec hstep
  have hres := execResult_of_step hrun hdec hstep
  refine ⟨fun hdest => ?_, fun hdest => ?_, hres.s_eq⟩
  · refine (hres.getReg_ownFlag (by decide) (by decide) hdest).imp_right fun ⟨hown, hset⟩ => ⟨?_, hset⟩
    simpa [OwnFlag] using hown
  · refine (hres.getReg_ownFlag (by decide) (by decide) hdest).imp_right fun ⟨hown, hset⟩ => ⟨?_, hset⟩
    simpa [OwnFlag] using hown

/-- Settles O30: a flag that is not named keeps its value or takes 0 or 1 (O29). -/
theorem flagsStayBoolean : Obligations.FlagsStayBoolean := by
  unfold Obligations.FlagsStayBoolean
  intro s t i hrun hdec hstep hds hdo hdu hs ho hu
  obtain ⟨hovfl, hudfl, hcmp⟩ := flagsAreStickyAndOwned s t i hrun hdec hstep
  refine ⟨?_, ?_, ?_⟩
  · obtain h | ⟨-, -, h | h⟩ := hcmp hds <;> simp [h, hs]
  · obtain h | ⟨-, h⟩ := hovfl hdo <;> simp [h, ho]
  · obtain h | ⟨-, h⟩ := hudfl hdu <;> simp [h, hu]

/-! ## `pc` over a step (R25) -/

theorem Wrote.pc_toNat_of_ne {t u : State} {d : Reg} {v : Byte} {flag : Option Reg} (h : Wrote t u d v flag) (hd : d ≠ .pc) :
    u.pc.toNat = min (t.pc.toNat + 1) 255 := by
  obtain ⟨-, hpc, -⟩ := h
  rw [hpc, if_neg hd]

/-- The two ways in which a meaning that raises nothing does not advance `pc`: a jump that is taken, a destination `pc`. -/
theorem ExecResult.pc_toNat {i : Instr} {s t : State} (h : ExecResult i s t) (hcode : t.fcode = 0)
    (hdest : destinationOf i ≠ some .pc) (htaken : ¬TakenJump s i.opcode) : t.pc.toNat = min (s.pc.toNat + 1) 255 := by
  cases h with
  | raised r => exact absurd hcode (code_ne_zero r.cause)
  | wrote _ hd _ hw => exact hw.pc_toNat_of_ne fun hpc => hdest (hpc ▸ hd)
  | compared _ _ _ hw => exact hw.pc_toNat_of_ne (by decide)
  | jumped v _ hjump => exact absurd hjump htaken
  | advanced => exact incPc_toNat s.pc

theorem destinationOf_eq_none {i : Instr} (h : 4 ≤ i.opcode.toNat) : destinationOf i = none := by
  cases i
  case mov | add | sub => exact absurd h (by simp [Instr.opcode])
  all_goals rfl

theorem not_takenJump_of_low {s : State} {op : BitVec 4} (h : op.toNat ≤ 6) : ¬TakenJump s op := by
  rintro (rfl | ⟨rfl, -⟩ | ⟨rfl, -⟩) <;> exact absurd h (by decide)

/-- Settles O27: a raise leaves `pc`; the instructions named are the ones that only advance it, and below `PEND` the
increment does not saturate. -/
theorem pcAdvancesByOne : Obligations.PcAdvancesByOne := by
  unfold Obligations.PcAdvancesByOne
  intro s t i hrun hdec hstep
  have hres := execResult_of_step hrun hdec hstep
  obtain ⟨hclear, hlt⟩ := hrun
  refine ⟨fun hfault => ?_, fun hcode hkind => ?_⟩
  · obtain ⟨r, rfl⟩ | ⟨hcode, -, -⟩ := hres.raised_or_sameLatch
    · rfl
    · exact absurd (hcode.symm.trans hclear) hfault
  · have hadvance : destinationOf i ≠ some .pc ∧ ¬TakenJump s i.opcode := by
      obtain ⟨hlow, hdest⟩ | ⟨hop, hs⟩ | ⟨hop, hs⟩ := hkind
      · exact ⟨hdest, not_takenJump_of_low hlow⟩
      · exact ⟨by simp [destinationOf_eq_none, hop], by simp [TakenJump, hop, hs]⟩
      · exact ⟨by simp [destinationOf_eq_none, hop], by simpa [TakenJump, hop] using hs⟩
    obtain ⟨hdest, htaken⟩ := hadvance
    rw [hres.pc_toNat hcode hdest htaken]
    omega

/-! ## The frames -/

/-- What the three frames share: a raise leaves the registers, anything else the latch, and nothing writes an input. -/
theorem exec_frame {i : Instr} {s t : State} (h : exec i s = .next t) :
    (SameLatch s t ∨ SameRegs s t) ∧ SameInputs s t ∧ ∀ a, t.imem.readByte a = s.imem.readByte a := by
  have hinputs := exec_sameInputs h
  obtain ⟨-, -, -, hbytes⟩ := id hinputs
  refine ⟨?_, hinputs, fun a => (hbytes a).symm⟩
  obtain ⟨r, rfl⟩ | hlatch := (execResult_of_exec h).raised_or_sameLatch
  · exact .inr ⟨rfl, rfl, rfl, rfl, rfl, rfl⟩
  · exact .inl hlatch

theorem not_ownFlag_of_four_le {i : Instr} (h : 4 ≤ i.opcode.toNat) (f : Reg) : ¬OwnFlag i f := by
  rintro (⟨hop, -⟩ | ⟨hop, -⟩) <;> exact absurd h (by rw [hop]; decide)

/-- Settles O37: `mov`, `add` and `sub` are no comparison, and the excepted flags are their own. -/
theorem frameOfRegisterWriters : Obligations.FrameOfRegisterWriters := by
  unfold Obligations.FrameOfRegisterWriters
  intro s t i hop hexec
  refine ⟨fun r hdest hpc hovfl hudfl => ?_, exec_frame hexec⟩
  exact (execResult_of_exec hexec).getReg_frame hpc hdest (fun hown => hown.elim hovfl hudfl) fun hlow => by omega

/-- Settles O38: a comparison names no destination and has no flag of its own. -/
theorem frameOfComparisons : Obligations.FrameOfComparisons := by
  unfold Obligations.FrameOfComparisons
  intro s t i hlow _ hexec
  refine ⟨fun r hs hpc => ?_, exec_frame hexec⟩
  exact (execResult_of_exec hexec).getReg_frame hpc (by simp [destinationOf_eq_none hlow])
    (not_ownFlag_of_four_le hlow r) fun _ _ => hs

/-- Settles O39: a jump names no destination, has no flag of its own and is no comparison. -/
theorem frameOfJumps : Obligations.FrameOfJumps := by
  unfold Obligations.FrameOfJumps
  intro s t i hop hexec
  have hlow : 4 ≤ i.opcode.toNat := by omega
  refine ⟨fun r hpc => ?_, exec_frame hexec⟩
  exact (execResult_of_exec hexec).getReg_frame hpc (by simp [destinationOf_eq_none hlow])
    (not_ownFlag_of_four_le hlow r) fun _ hhigh => by omega

end Sys2Proof.Machine
end

section
/-! PROOFS. The consequences the spec spells out: writing `pc` (R144), `mov` to itself (R82, R110), surplus tokens (R64), the
jump to `PEND` (R145), and that one of `jnz` and `jze` is taken (R142). -/

namespace Sys2Proof.Machine

/-! ## Writing `pc` is not a jump (R144) -/

/-- What a write of `pc` leaves: no fault, the increment of the value, and a halt where that reaches `PEND`. -/
theorem Wrote.pc_destination {s t : State} {v : Byte} {flag : Option Reg} (h : Wrote s t .pc v flag) (hcode : s.fcode = 0) :
    t.fcode = 0 ∧ t.pc.toNat = min (v.toNat + 1) 255 ∧ (s.pend.toNat ≤ min (v.toNat + 1) 255 → t.Halted) := by
  obtain ⟨-, hpc, ⟨hlatch, -, -⟩, ⟨hpend, -, -, -⟩⟩ := h
  rw [if_pos rfl] at hpc
  have hclear : t.fcode = 0 := hlatch ▸ hcode
  refine ⟨hclear, hpc, fun hreach => ⟨hclear, ?_⟩⟩
  rwa [hpc, ← hpend]

/-- Settles O26: each of the three writes `pc` with the value named, clamped for `add` and `sub`. -/
theorem writingPcIsNotAJump : Obligations.WritingPcIsNotAJump := by
  unfold Obligations.WritingPcIsNotAJump
  intro s n o x hn ho hcode i v hi
  have hwrite : ∃ t w flag, exec i s = .next t ∧ Wrote s t .pc w flag ∧ w.toNat = v := by
    obtain ⟨rfl, rfl⟩ | ⟨rfl, rfl⟩ | ⟨rfl, rfl⟩ := hi
    · exact ⟨_, x, none, exec_mov_ok .pc hn ((hasValue_iff s o x).1 ho), wrote_of_only_write s .pc x, rfl⟩
    · obtain ⟨t, ht, hw⟩ := exec_add_wrote .pc hn ho
      rw [← addClamp_eq] at hw
      exact ⟨t, _, _, ht, hw, by rw [addClamp_toNat, Nat.add_comm, getReg_pc]⟩
    · obtain ⟨t, ht, hw⟩ := exec_sub_wrote .pc hn ho
      rw [← subClamp_eq] at hw
      exact ⟨t, _, _, ht, hw, by rw [subClamp_toNat, getReg_pc]⟩
  obtain ⟨t, w, flag, ht, hw, rfl⟩ := hwrite
  exact ⟨t, ht, hw.pc_destination hcode⟩

/-! ## `mov` of a register to itself -/

@[simp] theorem setReg_getReg (t : State) (r : Reg) : t.setReg r (t.getReg r) = t := by
  cases r <;> rfl

/-- Settles O36: the write stores what the register holds, so only the increment is left. -/
theorem movToItselfOnlyAdvances : Obligations.MovToItselfOnlyAdvances := by
  unfold Obligations.MovToItselfOnlyAdvances
  intro s n d hn
  refine ⟨_, exec_mov_ok d hn (resolve_number s d), ?_⟩
  rw [commit_cons, commit_nil, setReg_getReg]
  exact onlyAdvanced_updatePc s

/-! ## Surplus tokens (R64) -/

section
variable {s : State} {n k : TokenCount} {a b : Operand}

theorem exec_clamp_congr {mk : TokenCount → Operand → Operand → Instr} {flags : Byte → Byte → List (Reg × Byte)}
    {clamp : Byte → Byte → Byte} (hmk : IsClampInstr mk flags clamp) (hn : 2 ≤ n.toNat) (hk : 2 ≤ k.toNat) :
    exec (mk n a b) s = exec (mk k a b) s := by
  simp only [hmk n a b s, hmk k a b s, clampMeaning, needText_of_two_le hn, needText_of_two_le hk, needOps_ok hn, needOps_ok hk]

theorem exec_mov_congr (hn : 2 ≤ n.toNat) (hk : 2 ≤ k.toNat) : exec (.mov n a b) s = exec (.mov k a b) s := by
  simp only [exec, execMov, needText_of_two_le hn, needText_of_two_le hk, needOps_ok hn, needOps_ok hk]

theorem compareOperands_congr (rel : Byte → Byte → Bool) (hn : 2 ≤ n.toNat) (hk : 2 ≤ k.toNat) :
    compareOperands n a b s rel = compareOperands k a b s rel := by
  simp only [compareOperands, needOps_ok hn, needOps_ok hk]

theorem exec_compare_congr (hn : 2 ≤ n.toNat) (hk : 2 ≤ k.toNat) :
    exec (.cmp n a b) s = exec (.cmp k a b) s ∧ exec (.cgt n a b) s = exec (.cgt k a b) s ∧
      exec (.clt n a b) s = exec (.clt k a b) s := by
  simp only [exec, execCmp, execCgt, execClt, needText_of_two_le hn, needText_of_two_le hk, compareOperands_congr _ hn hk,
    and_self]

theorem exec_jmp_congr (hn : n ≠ 0) (hk : k ≠ 0) : exec (.jmp n a b) s = exec (.jmp k a b) s := by
  rw [exec_jmp_eq s a b hn, exec_jmp_eq s a b hk]

theorem exec_jnz_congr (hn : n ≠ 0) (hk : k ≠ 0) : exec (.jnz n a b) s = exec (.jnz k a b) s := by
  by_cases hs : s.s = 0
  · rw [exec_jnz_not_taken a b hn hs, exec_jnz_not_taken a b hk hs]
  · rw [exec_jnz_taken n a b hs, exec_jnz_taken k a b hs, exec_jmp_congr hn hk]

theorem exec_jze_congr (hn : n ≠ 0) (hk : k ≠ 0) : exec (.jze n a b) s = exec (.jze k a b) s := by
  by_cases hs : s.s = 0
  · rw [exec_jze_taken n a b hs, exec_jze_taken k a b hs, exec_jmp_congr hn hk]
  · rw [exec_jze_not_taken a b hn hs, exec_jze_not_taken a b hk hs]

end

/-- Settles O34: `N` is read by the two checks of the token count only, and both pass for either count. -/
theorem surplusTokensChangeNothing : Obligations.SurplusTokensChangeNothing := by
  unfold Obligations.SurplusTokensChangeNothing
  refine ⟨fun s n k a b hn hk => ?_, fun s n k a b hn hk => ?_⟩
  · exact ⟨exec_mov_congr hn hk, exec_clamp_congr isClampInstr_add hn hk, exec_clamp_congr isClampInstr_sub hn hk,
      exec_compare_congr hn hk⟩
  · exact ⟨exec_jmp_congr hn hk, exec_jnz_congr hn hk, exec_jze_congr hn hk⟩

/-! ## Jumps (R142, R145) -/

/-- Settles O35: `PEND` is not above `PEND`, so the jump is taken, and a state with `pc` at `PEND` is halted. -/
theorem jumpToPendHalts : Obligations.JumpToPendHalts := by
  unfold Obligations.JumpToPendHalts
  intro s n b hn hrun
  obtain ⟨hclear, -⟩ := hrun
  have hhalted : (s.setReg .pc s.pend).Halted := ⟨hclear, Nat.le_refl _⟩
  refine ⟨_, exec_jmp_ok b hn (resolve_imm s s.pend) (Nat.le_refl _), rfl, hhalted, fun u hu => ?_⟩
  exact not_running_and_halted _ ⟨(exists_step_next_iff_running _).1 ⟨u, hu⟩, hhalted⟩

/-- Settles O32: whichever `s` selects is `jmp` to a target in range, and the other one only advances. -/
theorem jnzAndJzeAreComplementary : Obligations.JnzAndJzeAreComplementary := by
  unfold Obligations.JnzAndJzeAreComplementary
  intro s n a b x hn hx hnear
  have hjmp : exec (.jmp n a b) s = .next (s.setReg .pc x) := exec_jmp_ok b hn ((hasValue_iff s a x).1 hx) hnear
  refine ⟨s.setReg .pc x, s.updatePc none, onlyAdvanced_updatePc s, rfl, ?_⟩
  by_cases hs : s.s = 0
  · exact .inr ⟨hs, exec_jnz_not_taken a b hn hs, (exec_jze_taken n a b hs).trans hjmp⟩
  · exact .inl ⟨hs, (exec_jnz_taken n a b hs).trans hjmp, exec_jze_not_taken a b hn hs⟩

end Sys2Proof.Machine
end
